-- ==== Sys2Proof/Word.lean ====
section
/-! DEFINITION. The machine's one word type: a byte (R8 of 00_scope.md: every register value, memory cell, operand
and opcode is an unsigned integer from 0 to 255). -/

namespace Sys2Proof

/-- Bits are numbered from 0, the least significant (R7 of 00_scope.md). -/
abbrev Byte := BitVec 8

end Sys2Proof
end

