-- ==== Sys2Proof/Config.lean ====
section
/-! DEFINITION. What is fixed for a whole run (R6 of 00_scope.md): the parameters `OPCODE_MAP` and `EXT_ALU_MODE`,
and the byte a memory cell holds that no list names. Nothing here changes while the machine runs. -/

namespace Sys2Proof

/-- The 21 mnemonics of the dispatch table (R49 of 30_encoding.md). -/
inductive Mnemonic where
  | nop | hlt | ret
  | push | pop | prn
  | call | jmp | jeq | jne
  | not
  | ldi
  | add | sub | mul | mod | cmp | or | xor | shl | shr
deriving DecidableEq, Repr

def Mnemonic.all : List Mnemonic :=
  [.nop, .hlt, .ret, .push, .pop, .prn, .call, .jmp, .jeq, .jne, .not, .ldi,
   .add, .sub, .mul, .mod, .cmp, .or, .xor, .shl, .shr]

/-- Operand bytes of each mnemonic: constraint 3 of R50 (30_encoding.md). -/
def Mnemonic.operands : Mnemonic → Nat
  | .nop | .hlt | .ret => 0
  | .push | .pop | .prn | .call | .jmp | .jeq | .jne | .not => 1
  | .ldi | .add | .sub | .mul | .mod | .cmp | .or | .xor | .shl | .shr => 2

/-- Whether the handler sets the pc itself: constraint 4 of R50. -/
def Mnemonic.transfersControl : Mnemonic → Bool
  | .call | .ret | .jmp | .jeq | .jne => true
  | .nop | .hlt | .push | .pop | .prn | .not | .ldi
  | .add | .sub | .mul | .mod | .cmp | .or | .xor | .shl | .shr => false

/-- A value for `OPCODE_MAP`: the opcode byte of each mnemonic (R6, R49). -/
structure OpcodeTable where
  nop : Byte
  hlt : Byte
  ret : Byte
  push : Byte
  pop : Byte
  prn : Byte
  call : Byte
  jmp : Byte
  jeq : Byte
  jne : Byte
  not : Byte
  ldi : Byte
  add : Byte
  sub : Byte
  mul : Byte
  mod : Byte
  cmp : Byte
  or : Byte
  xor : Byte
  shl : Byte
  shr : Byte
deriving DecidableEq, Repr

def OpcodeTable.byteOf (t : OpcodeTable) : Mnemonic → Byte
  | .nop => t.nop
  | .hlt => t.hlt
  | .ret => t.ret
  | .push => t.push
  | .pop => t.pop
  | .prn => t.prn
  | .call => t.call
  | .jmp => t.jmp
  | .jeq => t.jeq
  | .jne => t.jne
  | .not => t.not
  | .ldi => t.ldi
  | .add => t.add
  | .sub => t.sub
  | .mul => t.mul
  | .mod => t.mod
  | .cmp => t.cmp
  | .or => t.or
  | .xor => t.xor
  | .shl => t.shl
  | .shr => t.shr

/-- The constraints of R50 (30_encoding.md), in its order: the three bytes the source gives; injective; bits 7:6 are
the operand count; bit 4 is 1 exactly for the control transfers. -/
def OpcodeTable.admissible (t : OpcodeTable) : Bool :=
  (t.ldi == 0x82 && t.prn == 0x47 && t.hlt == 0x01)
  && decide ((Mnemonic.all.map t.byteOf).Nodup)
  && Mnemonic.all.all (fun k => (t.byteOf k).toNat / 64 == k.operands)
  && Mnemonic.all.all (fun k => (t.byteOf k).getLsbD 4 == k.transfersControl)

/-- `OPCODE_MAP`: "Any OPCODE_MAP a model takes must satisfy these constraints" (R50), so a map carries its check. -/
abbrev OpcodeMap := { t : OpcodeTable // t.admissible = true }

/-- The opcode byte of a mnemonic under a map. -/
def OpcodeMap.byteOf (m : OpcodeMap) (k : Mnemonic) : Byte := m.val.byteOf k

/-- `EXT_ALU_MODE` (R6, R81 of 42_alu.md; D7). -/
inductive ExtAluMode where
  | implemented
  | fault
deriving DecidableEq, Repr

/-- The parameters of a run that an instruction's effect depends on (R6). "Each one is fixed for a whole run." -/
structure Params where
  opcodes : OpcodeMap
  extAlu : ExtAluMode
deriving DecidableEq, Repr

/-- What a memory cell that no list names reads as. DESIGN CHOICE (log entry 3, unsafe): the spec leaves memory past
the image open (`INIT_MEM`, R112 of 70_reset_and_hazards.md); statements quantify over the whole memory instead. -/
def Config.unlistedByte : Byte := 0x00

end Sys2Proof
end

