-- ==== Sys2Proof/WellFormed.lean ====
section
/-! DEFINITION. The checks on data that comes from outside: an instruction whose register operands name registers
(R11 of 10_state.md, R55 of 30_encoding.md: a register is written R0 to R7), and a program image of a legal length
(R106 of 70_reset_and_hazards.md). The check on an opcode map is `OpcodeTable.admissible` (R50), in Config.lean.

An instruction that is not well-formed still decodes, encodes and runs: it raises RegisterIndexFault where the rules say
so (R48). -/

namespace Sys2Proof

/-- The operand byte names one of the eight registers. -/
def namesRegister (a : Byte) : Bool := a.toNat ≤ 7

/-- The register operands of the instruction, per R47: all of them but LDI's immediate and CALL's memory address. -/
def Instr.registerOperands : Instr → List Byte
  | .nop | .hlt | .ret | .call _ => []
  | .push a | .pop a | .prn a | .jmp a | .jeq a | .jne a | .not a | .ldi a _ => [a]
  | .add a b | .sub a b | .mul a b | .mod a b | .cmp a b
  | .or a b | .xor a b | .shl a b | .shr a b => [a, b]

def Instr.wellFormed (i : Instr) : Bool := i.registerOperands.all namesRegister

/-- "The image length n is between 1 and 256" (R106). -/
def imageWellFormed (image : List Byte) : Bool := decide (1 ≤ image.length) && decide (image.length ≤ 256)

end Sys2Proof
end

