-- ==== Sys2Proof/Decode.lean ====
section
/-! DEFINITION. Decoding a fetch window or a byte sequence into an instruction (30_encoding.md), total on any bytes,
and the encoder; the default opcode map of R49; and the host's `decodeTableWord`. -/

namespace Sys2Proof

/-- `count(op) = op[7:6]`, total on every byte (R46). -/
def operandCount (op : Byte) : Nat := (op.extractLsb' 6 2).toNat

/-- `setsPC(op) = op[4]`, total on every byte (R46). -/
def setsPC (op : Byte) : Bool := op.getLsbD 4

/-- The table of R49. LDI, PRN and HLT are the source's; the other eighteen values are PRESUMED (the spec marks them
"from general knowledge", D1; log entry 5). -/
def conventionalTable : OpcodeTable where
  nop := 0x00
  hlt := 0x01
  ret := 0x11
  push := 0x45
  pop := 0x46
  prn := 0x47
  call := 0x50
  jmp := 0x54
  jeq := 0x55
  jne := 0x56
  not := 0x69
  ldi := 0x82
  add := 0xA0
  sub := 0xA1
  mul := 0xA2
  mod := 0xA4
  cmp := 0xA7
  or := 0xAA
  xor := 0xAB
  shl := 0xAC
  shr := 0xAD

theorem conventionalTable_admissible : conventionalTable.admissible = true := by decide

/-- The default of `OPCODE_MAP` (R6, R49). -/
def conventionalMap : OpcodeMap := ⟨conventionalTable, conventionalTable_admissible⟩

/-- The mnemonic whose byte is `op`, if any: "The dispatcher recognises an opcode by its whole byte value" (R50). -/
def mnemonicOf (m : OpcodeMap) (op : Byte) : Option Mnemonic :=
  Mnemonic.all.find? (fun k => m.byteOf k == op)

/-- The instruction a mnemonic and the two operand bytes of the window make (R47). -/
def instrOf : Mnemonic → Byte → Byte → Instr
  | .nop, _, _ => .nop
  | .hlt, _, _ => .hlt
  | .ret, _, _ => .ret
  | .push, a, _ => .push a
  | .pop, a, _ => .pop a
  | .prn, a, _ => .prn a
  | .call, a, _ => .call a
  | .jmp, a, _ => .jmp a
  | .jeq, a, _ => .jeq a
  | .jne, a, _ => .jne a
  | .not, a, _ => .not a
  | .ldi, a, b => .ldi a b
  | .add, a, b => .add a b
  | .sub, a, b => .sub a b
  | .mul, a, b => .mul a b
  | .mod, a, b => .mod a b
  | .cmp, a, b => .cmp a b
  | .or, a, b => .or a b
  | .xor, a, b => .xor a b
  | .shl, a, b => .shl a b
  | .shr, a, b => .shr a b

/-- Why bytes are no instruction. -/
inductive DecodeError where
  /-- The opcode byte is not in `OPCODE_MAP` (R51). -/
  | unknownOpcode (op : Byte)
  /-- A byte sequence ends before the instruction does; a fetch window never does. -/
  | truncated
deriving DecidableEq, Repr

/-- `Decode(op, a, b)` of R54, for the three bytes of a fetch window. "The decoder reads no state besides the three
bytes." The count and the sets-PC bit of R54's result are `operandCount op` and `setsPC op`. -/
def decodeWindow (m : OpcodeMap) (op a b : Byte) : Except DecodeError Instr :=
  match mnemonicOf m op with
  | none => .error (.unknownOpcode op)
  | some k => .ok (instrOf k a b)

/-- One instruction off the front of a byte sequence, with the rest of it: its length is `op[7:6] + 1` (R53). -/
def decodeBytes (m : OpcodeMap) : List Byte → Except DecodeError (Instr × List Byte)
  | [] => .error .truncated
  | op :: rest =>
    match mnemonicOf m op with
    | none => .error (.unknownOpcode op)
    | some k =>
      if rest.length < operandCount op then .error .truncated
      else .ok (instrOf k (rest.getD 0 0) (rest.getD 1 0), rest.drop (operandCount op))

/-- The bytes of an instruction, in ascending addresses: the opcode, then its operands (R43). -/
def encode (m : OpcodeMap) (i : Instr) : List Byte := m.byteOf i.mnemonic :: i.operandBytes

/-- The three bytes, first at the lowest address, of a table word of `nbits` bits: bit 0 is the least significant bit of
the first byte, and every bit from `nbits` on is 0. -/
def tableWordBytes (nbits w : Nat) : Byte × Byte × Byte :=
  let v := w % 2 ^ nbits
  (BitVec.ofNat 8 v, BitVec.ofNat 8 (v / 256), BitVec.ofNat 8 (v / 65536))

/-- What the decoder reads from a table word laid out as a fetch window, under the default map. -/
def decodeTableWord (nbits w : Nat) : Option Instr :=
  match decodeWindow conventionalMap (tableWordBytes nbits w).1 (tableWordBytes nbits w).2.1
      (tableWordBytes nbits w).2.2 with
  | .ok i => some i
  | .error _ => none

end Sys2Proof
end

