-- ==== Sys2Proof/Machine/State.lean ====
section
/-! DEFINITION. The state of the machine (R26 of 10_state.md: "The architectural state is exactly" this list), the
ways a step can stop, and the state right after reset. -/

namespace Sys2Proof.Machine

/-- RUNNING, HALTED, FAULTED (R22 of 10_state.md). -/
inductive RunState where
  | running
  | halted
  | faulted
deriving DecidableEq, Repr

/-- The six fault kinds of R93 (60_exceptions.md), each with the info R93 records besides the opcode and the pc. -/
inductive FaultKind where
  /-- A fetched byte that is not in `OPCODE_MAP` (R94). -/
  | unknownOpcode
  /-- A fetch with pc + 2 > 255 (R96). -/
  | fetchBounds
  /-- A register index above 7 was used (R95); the index. -/
  | registerIndex (index : Byte)
  /-- A push with SP = 0, or a pop whose increment would pass 255 (R97); SP as it stood at the check. -/
  | stackBounds (sp : Byte)
  /-- MOD with divisor 0 (R98). -/
  | divideByZero
  /-- One of the six extended operations under `EXT_ALU_MODE` = fault (R99). -/
  | aluUnsupported
deriving DecidableEq, Repr

/-- The fault record of R23 (10_state.md): the kind with its info, the pc of the faulting instruction, and the opcode
byte when the fetch succeeded. -/
structure FaultRecord where
  kind : FaultKind
  pc : Nat
  opcode : Option Byte
deriving DecidableEq, Repr

/-- Memory as a list of (address, byte) pairs in the canonical form of `Memory.wf` (Ops.lean). -/
abbrev Memory := List Host.Cell

/-- The architectural state (R26), and the run's parameters (R6 of 00_scope.md; log entry 4), which no step changes. -/
structure State where
  /-- R0 to R7; R7 is the stack pointer (R11, R13). -/
  regs : Vector Byte 8
  /-- The program counter, 0 to 256, never wrapping (R17). -/
  pc : Nat
  /-- The flag register; bit 0 is E (R19). -/
  fl : Byte
  run : RunState
  /-- Empty while RUNNING and HALTED (R23). -/
  fault : Option FaultRecord
  /-- The output channel, oldest byte first (R24). -/
  output : List Byte
  mem : Memory
  params : Params
deriving DecidableEq, Repr

/-- Why `step` stops without a next state: "In HALTED or FAULTED no step is enabled" (R57 of 40_execution_loop.md).
The faults of R93 are not here: they are next states whose run state is FAULTED (R92; log entry 7). -/
inductive Fault where
  /-- Raised by `step` alone, in a HALTED state. Safe: the machine takes no step there (log entry 8). -/
  | stepWhenHalted
  /-- Raised by `step` alone, in a FAULTED state. Safe: the machine takes no step there (log entry 8). -/
  | stepWhenFaulted
deriving DecidableEq, Repr

/-- Why an instruction has no meaning. -/
inductive Refusal where
  /-- Raised by an arm of `exec` whose instruction has no meaning yet: none, in this model. Safe. -/
  | notModelled (mnemonic : String)
deriving DecidableEq, Repr

/-- The default parameters of R6: the map of R49 and `implemented`. -/
def defaultParams : Params := { opcodes := conventionalMap, extAlu := .implemented }

/-- The state right after reset (R107 of 70_reset_and_hazards.md), before any image is loaded. R7 = 0xF4 (R108),
pc = 0 and RUNNING (R109), empty fault record and output (R113) are the spec's. DESIGN CHOICE: R0 to R6 = 0 (log entry
1), FL = 0 (log entry 2), no memory cell listed (log entry 3); for every other choice see `boot` in Loader.lean. -/
def State.reset : State where
  regs := #v[0x00, 0x00, 0x00, 0x00, 0x00, 0x00, 0x00, 0xF4]
  pc := 0
  fl := 0x00
  run := .running
  fault := none
  output := []
  mem := []
  params := defaultParams

end Sys2Proof.Machine
end

