-- ==== Sys2Proof/Machine/Ops.lean ====
section
/-! DEFINITION. The named operations over memory, registers, stack pointer, output and pc; entering FAULTED (R92 of
60_exceptions.md), the one form of exception this machine has; and what the execution loop does after a handler.

There is no return from a fault beside it: "There is no trap handler, trap vector, saved-state area or return from a
fault" (R92). -/

namespace Sys2Proof.Machine

/-! ### Memory (20_memory.md) -/

/-- The byte at an address: "A read returns the byte the most recent write to that cell left, or its initial value"
(R31). -/
def Memory.read (m : Memory) (a : Nat) : Byte :=
  match m with
  | [] => Config.unlistedByte
  | (k, v) :: rest => if k = a then v else Memory.read rest a

/-- Write one byte, keeping addresses rising and listing no byte equal to `Config.unlistedByte`. -/
def Memory.write (m : Memory) (a : Nat) (v : Byte) : Memory :=
  match m with
  | [] => if v = Config.unlistedByte then [] else [(a, v)]
  | (k, w) :: rest =>
    if a < k then (if v = Config.unlistedByte then (k, w) :: rest else (a, v) :: (k, w) :: rest)
    else if a = k then (if v = Config.unlistedByte then rest else (a, v) :: rest)
    else (k, w) :: Memory.write rest a v

/-- Write a byte sequence at ascending addresses (R104 of 70_reset_and_hazards.md). -/
def Memory.writeBytes (m : Memory) (a : Nat) (bytes : List Byte) : Memory :=
  match bytes with
  | [] => m
  | v :: rest => Memory.writeBytes (Memory.write m a v) (a + 1) rest

/-- Every listed address is at least `lo` and addresses rise strictly, every listed byte differs from what an unlisted
cell reads as, and every address exists (R28: 0 to 255). -/
def Memory.wfFrom (lo : Nat) (m : Memory) : Bool :=
  match m with
  | [] => true
  | (k, v) :: rest => decide (lo ≤ k) && decide (k ≤ 255) && (v != Config.unlistedByte) && Memory.wfFrom (k + 1) rest

/-- The canonical form. -/
def Memory.wf (m : Memory) : Bool := Memory.wfFrom 0 m

/-- `MemRead(addr, 1)` (R8 of 00_scope.md); a data address is a byte (R30). -/
def State.load (s : State) (a : Byte) : Byte := s.mem.read a.toNat

/-- `MemWrite(addr, 1, v)`. -/
def State.store (s : State) (a v : Byte) : State := { s with mem := s.mem.write a.toNat v }

/-! ### Registers (10_state.md): one home for every read and write -/

/-- `x[i]`. No register is hardwired (R12). -/
def State.reg (s : State) (i : Fin 8) : Byte := s.regs[i]

/-- `x[i] <- v`. -/
def State.setReg (s : State) (i : Fin 8) (v : Byte) : State := { s with regs := s.regs.set i v }

/-- Register 7 is the stack pointer (R13). -/
def spIndex : Fin 8 := 7

def State.sp (s : State) : Byte := s.reg spIndex

/-! ### Output channel (R24) -/

/-- `Emit(v)`: append to the output channel. -/
def State.emit (s : State) (v : Byte) : State := { s with output := s.output ++ [v] }

/-! ### Faults -/

/-- The opcode byte of a mnemonic in this run; for a fetched instruction it is the fetched byte (log entry 18). -/
def State.opcode (s : State) (k : Mnemonic) : Byte := s.params.opcodes.byteOf k

/-- Enter FAULTED (R92): of the state at the start of the step, only the run state and the fault record change. `s` is
that state, so every write of the step is discarded and pc stays at the faulting instruction. -/
def State.enterFaulted (s : State) (r : FaultRecord) : State := { s with fault := some r, run := .faulted }

/-! ### The stack pointer's two moves (R83 of 43_stack.md): SP never wraps -/

/-- "A push with SP = 0 raises StackBoundsFault". -/
def State.decrementSp (s : State) : Except FaultKind State :=
  if s.sp = 0 then .error (.stackBounds s.sp) else .ok (s.setReg spIndex (s.sp - 1))

/-- "A pop raises StackBoundsFault when SP, as it stands when the increment is due, is 255". -/
def State.incrementSp (s : State) : Except FaultKind State :=
  if s.sp = 255 then .error (.stackBounds s.sp) else .ok (s.setReg spIndex (s.sp + 1))

/-- The byte a push writes at, once SP has been decremented; none where the push faults. -/
def State.pushAddress (s : State) : Option Byte := if s.sp = 0 then none else some (s.sp - 1)

/-- Store at the top of the stack: a push after its decrement. -/
def State.storeAtSp (s : State) (v : Byte) : State := s.store s.sp v

/-! ### The loop around a handler (40_execution_loop.md) -/

/-- "If op bit 4 is 0, the loop advances pc: pc <- pc + op[7:6] + 1, with no wrap" (R62); if it is 1, pc stays "as set
by the handler". -/
def State.advance (s : State) (op : Byte) : State :=
  if setsPC op then s else { s with pc := s.pc + operandCount op + 1 }

/-- "if the handler was HLT, the run state becomes HALTED" (R63), after the advance. -/
def State.haltAfter (s : State) (k : Mnemonic) : State := if k = .hlt then { s with run := .halted } else s

/-- The end of a step whose handler is `k`'s and answered `r` from the state `s` the step began in (R64): its fault
entered from `s` (R92), or the loop's advance and halt. -/
def State.conclude (s : State) (k : Mnemonic) (r : Except FaultKind State) : Host.Outcome State Fault Refusal :=
  match r with
  | .error f => .next (s.enterFaulted { kind := f, pc := s.pc, opcode := some (s.opcode k) })
  | .ok t => .next ((t.advance (s.opcode k)).haltAfter k)

end Sys2Proof.Machine
end

