-- ==== Sys2Proof/Machine/Operands.lean ====
section
/-! DEFINITION. The operand forms of R47 (30_encoding.md): a register index (the whole byte, checked when it is used),
and CALL's memory address of a byte that holds a register index. LDI's immediate is the operand byte itself. -/

namespace Sys2Proof.Machine

/-- `CheckReg(i)` (R8 of 00_scope.md, R48, R95 of 60_exceptions.md): the register, or RegisterIndexFault. -/
def checkReg (i : Byte) : Except FaultKind (Fin 8) :=
  if h : i.toNat < 8 then .ok ⟨i.toNat, h⟩ else .error (.registerIndex i)

/-- A register operand that is read. -/
def State.readOperand (s : State) (a : Byte) : Except FaultKind Byte := do
  let i ← checkReg a
  pure (s.reg i)

/-- CALL's operand: the byte at address `a` is a register index (R86 of 44_control_transfer.md). -/
def State.readIndirectOperand (s : State) (a : Byte) : Except FaultKind Byte := s.readOperand (s.load a)

end Sys2Proof.Machine
end

