-- ==== Sys2Proof/Machine/Flags.lean ====
section
/-! DEFINITION. The one flag: the equal bit E, bit 0 of FL (R19 of 10_state.md). CMP alone writes FL, whole; JEQ and JNE
alone read it, bit 0 only (R20). -/

namespace Sys2Proof.Machine

/-- The byte CMP writes: "FL is 0x01 or 0x00 after any CMP" (R21). -/
def compareFlag (x y : Byte) : Byte := if x = y then 0x01 else 0x00

/-- `FL[0]`. -/
def State.equalBit (s : State) : Bool := s.fl.getLsbD 0

def State.setFl (s : State) (v : Byte) : State := { s with fl := v }

end Sys2Proof.Machine
end

