-- ==== Sys2Proof/Machine/ControlIo.lean ====
section
/-! DEFINITION. HLT, NOP, LDI, PRN (41_control_io.md). -/

namespace Sys2Proof.Machine

/-- R67: "No effect"; the loop advances pc by 1. -/
def execNop (s : State) : Host.Outcome State Fault Refusal := s.conclude .nop (.ok s)

/-- R66: the handler changes nothing; the loop advances pc by 1 and sets HALTED (R63). -/
def execHlt (s : State) : Host.Outcome State Fault Refusal := s.conclude .hlt (.ok s)

/-- R68. -/
def execLdi (a b : Byte) (s : State) : Host.Outcome State Fault Refusal := s.conclude .ldi do
  let i ← checkReg a
  pure (s.setReg i b)

/-- R69. -/
def execPrn (a : Byte) (s : State) : Host.Outcome State Fault Refusal := s.conclude .prn do
  let v ← s.readOperand a
  pure (s.emit v)

end Sys2Proof.Machine
end

