-- ==== Sys2Proof/Machine/Alu.lean ====
section
/-! DEFINITION. The ALU and its ten instructions (42_alu.md). Arithmetic is on unbounded non-negative integers, reduced
modulo 256 at the end (R8 of 00_scope.md, R82). -/

namespace Sys2Proof.Machine

/-! ### Results, for register values x and y (the table of R82) -/

/-- R71: the carry out of bit 7 is lost. -/
def aluAdd (x y : Byte) : Byte := BitVec.ofNat 8 ((x.toNat + y.toNat) % 256)

/-- R72: a borrow wraps. -/
def aluSub (x y : Byte) : Byte := BitVec.ofNat 8 ((x.toNat + 256 - y.toNat) % 256)

/-- R73: the low 8 bits of the 16-bit product. -/
def aluMul (x y : Byte) : Byte := BitVec.ofNat 8 ((x.toNat * y.toNat) % 256)

/-- R75, for y ≠ 0. -/
def aluMod (x y : Byte) : Byte := BitVec.ofNat 8 (x.toNat % y.toNat)

/-- R76: zero fill; the amount is the whole byte. -/
def aluShl (x y : Byte) : Byte := BitVec.ofNat 8 ((x.toNat <<< y.toNat) % 256)

/-- R77: zero fill from bit 7; the amount is the whole byte. -/
def aluShr (x y : Byte) : Byte := BitVec.ofNat 8 (x.toNat >>> y.toNat)

/-- R78. -/
def aluXor (x y : Byte) : Byte := x ^^^ y

/-- R79. -/
def aluOr (x y : Byte) : Byte := x ||| y

/-- R80: 255 - x. -/
def aluNot (x : Byte) : Byte := BitVec.ofNat 8 (255 - x.toNat)

/-! ### Shared forms -/

/-- A two-operand ALU handler (R70): `CheckReg(a)`, then `CheckReg(b)`, before anything else; both sources are read
before the destination x[a] is written. -/
def aluBinary (f : Byte → Byte → Byte) (a b : Byte) (s : State) : Except FaultKind State := do
  let i ← checkReg a
  let j ← checkReg b
  pure (s.setReg i (f (s.reg i) (s.reg j)))

/-- Under `EXT_ALU_MODE` = fault the extended operations raise AluUnsupported "as their first action, before any
register check" (R81). -/
def extendedAlu (s : State) (handler : Except FaultKind State) : Except FaultKind State :=
  match s.params.extAlu with
  | .fault => .error .aluUnsupported
  | .implemented => handler

/-! ### Handlers -/

def execAdd (a b : Byte) (s : State) : Host.Outcome State Fault Refusal := s.conclude .add (aluBinary aluAdd a b s)

def execSub (a b : Byte) (s : State) : Host.Outcome State Fault Refusal := s.conclude .sub (aluBinary aluSub a b s)

def execMul (a b : Byte) (s : State) : Host.Outcome State Fault Refusal := s.conclude .mul (aluBinary aluMul a b s)

/-- R74: FL is written whole; no register changes. -/
def execCmp (a b : Byte) (s : State) : Host.Outcome State Fault Refusal := s.conclude .cmp do
  let i ← checkReg a
  let j ← checkReg b
  pure (s.setFl (compareFlag (s.reg i) (s.reg j)))

/-- R75: a zero divisor raises DivideByZeroFault, after both register checks; nothing is written. -/
def execMod (a b : Byte) (s : State) : Host.Outcome State Fault Refusal := s.conclude .mod (extendedAlu s do
  let i ← checkReg a
  let j ← checkReg b
  if s.reg j = 0 then .error .divideByZero
  else pure (s.setReg i (aluMod (s.reg i) (s.reg j))))

def execShl (a b : Byte) (s : State) : Host.Outcome State Fault Refusal :=
  s.conclude .shl (extendedAlu s (aluBinary aluShl a b s))

def execShr (a b : Byte) (s : State) : Host.Outcome State Fault Refusal :=
  s.conclude .shr (extendedAlu s (aluBinary aluShr a b s))

def execXor (a b : Byte) (s : State) : Host.Outcome State Fault Refusal :=
  s.conclude .xor (extendedAlu s (aluBinary aluXor a b s))

def execOr (a b : Byte) (s : State) : Host.Outcome State Fault Refusal :=
  s.conclude .or (extendedAlu s (aluBinary aluOr a b s))

/-- R80: one operand; operand_b is never looked at. -/
def execNot (a : Byte) (s : State) : Host.Outcome State Fault Refusal := s.conclude .not (extendedAlu s do
  let i ← checkReg a
  pure (s.setReg i (aluNot (s.reg i))))

end Sys2Proof.Machine
end

