-- ==== Sys2Proof/Machine/Stack.lean ====
section
/-! DEFINITION. PUSH and POP (43_stack.md). The handlers run their steps in the order the rules list, each read seeing
the earlier writes (R9 of 00_scope.md, D21). -/

namespace Sys2Proof.Machine

/-- R84: x[a] is read after the decrement, so PUSH R7 stores the decremented SP. -/
def execPush (a : Byte) (s : State) : Host.Outcome State Fault Refusal := s.conclude .push do
  let i ← checkReg a
  let s1 ← s.decrementSp
  pure (s1.storeAtSp (s1.reg i))

/-- R85: x[a] is written before SP is checked and incremented, so POP R7 leaves the popped value + 1. -/
def execPop (a : Byte) (s : State) : Host.Outcome State Fault Refusal := s.conclude .pop do
  let i ← checkReg a
  (s.setReg i (s.load s.sp)).incrementSp

end Sys2Proof.Machine
end

