-- ==== Sys2Proof/Machine/Transfer.lean ====
section
/-! DEFINITION. CALL, RET, JMP, JEQ, JNE (44_control_transfer.md). Their opcodes have bit 4 set, so the loop leaves pc as
the handler set it (R62). -/

namespace Sys2Proof.Machine

/-- `pc <- target`: every target is an absolute byte (R91). -/
def State.jump (s : State) (target : Byte) : State := { s with pc := target.toNat }

/-- The not-taken path of JEQ and JNE: "fall through past the 2-byte instruction" (R89, R90; C1 of 90_conflicts.md). -/
def State.fallThrough (s : State) : State := { s with pc := s.pc + 2 }

/-- "address after CALL's 2 bytes; <= 255 because pc <= 253" (R86; log entry 14 for a larger pc, which no step has). -/
def State.returnAddress (s : State) : Byte := BitVec.ofNat 8 (s.pc + 2)

/-- A branch through x[a]; the register is checked only when the branch is taken (R95, D25). -/
def State.branch (s : State) (taken : Bool) (a : Byte) : Except FaultKind State :=
  if taken then do
    let target ← s.readOperand a
    pure (s.jump target)
  else .ok s.fallThrough

/-- R86: the operand is indirect (C5) and is read after the push. -/
def execCall (a : Byte) (s : State) : Host.Outcome State Fault Refusal := s.conclude .call do
  let s1 ← s.decrementSp
  let s2 := s1.storeAtSp s.returnAddress
  let target ← s2.readIndirectOperand a
  pure (s2.jump target)

/-- R87: the bound is checked first, then SP is read through and incremented. -/
def execRet (s : State) : Host.Outcome State Fault Refusal := s.conclude .ret do
  let s1 ← s.incrementSp
  pure (s1.jump (s.load s.sp))

/-- R88. -/
def execJmp (a : Byte) (s : State) : Host.Outcome State Fault Refusal := s.conclude .jmp do
  let target ← s.readOperand a
  pure (s.jump target)

/-- R89: taken when FL bit 0 is 1. -/
def execJeq (a : Byte) (s : State) : Host.Outcome State Fault Refusal := s.conclude .jeq (s.branch s.equalBit a)

/-- R90: taken when FL bit 0 is 0. -/
def execJne (a : Byte) (s : State) : Host.Outcome State Fault Refusal := s.conclude .jne (s.branch (!s.equalBit) a)

end Sys2Proof.Machine
end

