-- ==== Sys2Proof/Machine/Fetch.lean ====
section
/-! DEFINITION. The parts of a step before the handler (40_execution_loop.md): whether a step is enabled, the fetch, and
how a table word is laid where the next fetch reads. -/

namespace Sys2Proof.Machine

/-- "A step is taken only while the run state is RUNNING" (R57): the stop in any other state (log entry 8). -/
def State.notEnabled (s : State) : Option Fault :=
  match s.run with
  | .running => none
  | .halted => some .stepWhenHalted
  | .faulted => some .stepWhenFaulted

/-- The fetch window fits below 256 (R58). -/
def State.windowFits (s : State) : Bool := decide (s.pc + 2 ≤ 255)

/-- The byte at offset `k` of the fetch window: memory[pc + k] (R44, R59). -/
def State.windowByte (s : State) (k : Nat) : Byte := s.mem.read (s.pc + k)

/-- Fetch and decode (R58 to R60): the window check, then the three reads, then the opcode map; the instruction, or the
fault record. -/
def State.fetch (s : State) : Except FaultRecord Instr :=
  if s.windowFits then
    match decodeWindow s.params.opcodes (s.windowByte 0) (s.windowByte 1) (s.windowByte 2) with
    | .ok i => .ok i
    | .error _ => .error { kind := .unknownOpcode, pc := s.pc, opcode := some (s.windowByte 0) }
  else .error { kind := .fetchBounds, pc := s.pc, opcode := none }

/-- A pc a fetch can succeed at: the pc itself where its window fits, else the load address 0. -/
def State.fetchablePc (s : State) : Nat := if s.windowFits then s.pc else 0

/-- A state about to fetch: RUNNING, with an empty fault record, and a pc whose window fits (log entry 13). -/
def State.readyToFetch (s : State) : State := { s with run := .running, fault := none, pc := s.fetchablePc }

/-- Three bytes stored at pc, pc + 1, pc + 2. -/
def State.storeWindow (s : State) (op a b : Byte) : State := { s with mem := s.mem.writeBytes s.pc [op, a, b] }

end Sys2Proof.Machine
end

