-- ==== Sys2Proof/Machine/Step.lean ====
section
/-! DEFINITION. One step of the machine (R64 of 40_execution_loop.md), and placing an instruction where the next step
fetches. -/

namespace Sys2Proof.Machine

/-- `Step(s)` of R64: enabled only while RUNNING; fetch and decode, whose faults enter FAULTED (R92); then the handler
with the loop's advance and halt, which `exec` holds (log entry 9). -/
def step (s : State) : Host.Outcome State Fault Refusal :=
  match s.notEnabled with
  | some f => .fault f
  | none =>
    match s.fetch with
    | .error r => .next (s.enterFaulted r)
    | .ok i => exec i s

/-- `s` with a table word of `nbits` bits laid out as the fetch window of the very next step: it stands for the load of
R104 (log entries 12, 13). -/
def State.withFetchWord (s : State) (nbits w : Nat) : State :=
  s.readyToFetch.storeWindow (tableWordBytes nbits w).1 (tableWordBytes nbits w).2.1 (tableWordBytes nbits w).2.2

end Sys2Proof.Machine
end

