-- ==== Sys2Proof/Machine/Loader.lean ====
section
/-! DEFINITION. The load before the run and the state of R107 for every choice of its inputs (70_reset_and_hazards.md),
and the image text the loader reads (R56 of 30_encoding.md). This is where `INIT_REGS`, `INIT_FL`, `INIT_MEM` and
`IMAGE` (R6 of 00_scope.md) enter. -/

namespace Sys2Proof.Machine

/-- The load errors of R105's table. `usageError` and `notFound` are found by the host outside the engine (R4). -/
inductive LoadError where
  | usageError
  | malformedToken
  | notFound
  | emptyProgram
  | imageTooLong
deriving DecidableEq, Repr

/-- "host exit status" in R105's table. -/
def LoadError.exitStatus : LoadError → Nat
  | .usageError => 1
  | .malformedToken => 1
  | .notFound => 2
  | .emptyProgram => 3
  | .imageTooLong => 1

/-! ### Image text (R56); details of the text are log entry 15 -/

/-- Split at line feeds. -/
def splitLines (text : List Char) : List (List Char) :=
  match text with
  | [] => [[]]
  | c :: rest =>
    if c = '\n' then [] :: splitLines rest
    else match splitLines rest with
      | [] => [[c]]
      | l :: ls => (c :: l) :: ls

def isBlankChar (c : Char) : Bool := c == ' ' || c == '\t' || c == '\r'

def trimBlanks (l : List Char) : List Char := ((l.dropWhile isBlankChar).reverse.dropWhile isBlankChar).reverse

/-- The value of a binary literal whose digits so far made `acc`, bit 7 first (R7 of 00_scope.md). -/
def binaryValueFrom (acc : Nat) (l : List Char) : Option Nat :=
  match l with
  | [] => some acc
  | '0' :: rest => binaryValueFrom (2 * acc) rest
  | '1' :: rest => binaryValueFrom (2 * acc + 1) rest
  | _ :: _ => none

/-- A token is "a binary literal string interpreted as an unsigned 8-bit value". -/
def parseToken (l : List Char) : Except LoadError Byte :=
  match l with
  | [] => .error .malformedToken
  | _ :: _ =>
    match binaryValueFrom 0 l with
    | none => .error .malformedToken
    | some v => if v ≤ 255 then .ok (BitVec.ofNat 8 v) else .error .malformedToken

/-- A line gives no byte if it begins with `#` or is blank, else one. -/
def parseLine (l : List Char) : Except LoadError (List Byte) :=
  if l.head? = some '#' then .ok []
  else if trimBlanks l = [] then .ok []
  else do
    let v ← parseToken (trimBlanks l)
    pure [v]

def parseLines (ls : List (List Char)) : Except LoadError (List Byte) :=
  match ls with
  | [] => .ok []
  | l :: rest => do
    let vs ← parseLine l
    let ws ← parseLines rest
    pure (vs ++ ws)

/-- The image a text holds, in file order. -/
def parseImage (text : List Char) : Except LoadError (List Byte) := parseLines (splitLines text)

/-! ### Load and reset -/

/-- R105, R106: the run never starts on an empty image or on one longer than memory. -/
def checkImage (image : List Byte) : Except LoadError (List Byte) :=
  if image.length = 0 then .error .emptyProgram
  else if image.length > 256 then .error .imageTooLong
  else .ok image

/-- What R107 leaves unspecified (R110 to R112), and the run's parameters. -/
structure ResetInputs where
  initRegs : Vector Byte 7
  initFl : Byte
  initMem : Vector Byte 256
  params : Params
deriving DecidableEq, Repr

/-- The table of R107 without an image. -/
def State.poweredOn (r : ResetInputs) : State where
  regs := r.initRegs.push 0xF4
  pc := 0
  fl := r.initFl
  run := .running
  fault := none
  output := []
  mem := Memory.writeBytes [] 0 r.initMem.toList
  params := r.params

/-- R104: `memory[k] <- IMAGE[k]`, in order from address 0. -/
def State.loadImage (s : State) (image : List Byte) : State := { s with mem := s.mem.writeBytes 0 image }

/-- The state when the first step begins (R107), or the load error. -/
def boot (r : ResetInputs) (image : List Byte) : Except LoadError State := do
  let bytes ← checkImage image
  pure ((State.poweredOn r).loadImage bytes)

/-- From the image text. -/
def bootText (r : ResetInputs) (text : List Char) : Except LoadError State := do
  let image ← parseImage text
  boot r image

end Sys2Proof.Machine
end

