-- ==== Sys2Proof/Machine/Report.lean ====
section
/-! DEFINITION. What the host makes of the output channel and the status (R24 of 10_state.md, R93 and R103 of
60_exceptions.md). Text is a list of characters; its details are log entry 16. -/

namespace Sys2Proof.Machine

/-- The codes of R93. -/
def FaultKind.code : FaultKind → Nat
  | .unknownOpcode => 1
  | .fetchBounds => 2
  | .registerIndex _ => 3
  | .stackBounds _ => 4
  | .divideByZero => 5
  | .aluUnsupported => 6

/-- The host's exit status once a run has ended: 0 for HALTED, 1 for every fault (R93, R103, D15). -/
def exitStatus (s : State) : Option Nat :=
  match s.run with
  | .running => none
  | .halted => some 0
  | .faulted => some 1

def digitChar (d : Nat) : Char := Char.ofNat (48 + d)

/-- A number below 1000 in decimal, with no leading zero. -/
def decimal (n : Nat) : List Char :=
  if n < 10 then [digitChar n]
  else if n < 100 then [digitChar (n / 10), digitChar (n % 10)]
  else [digitChar (n / 100), digitChar (n / 10 % 10), digitChar (n % 10)]

/-- "The host renders each byte as one line holding its decimal value" (R24). -/
def renderOutput (output : List Byte) : List (List Char) := output.map (fun v => decimal v.toNat)

/-- "unknown instruction `opcode` at address `PC`" (R94), the one message the spec gives. -/
def faultMessage (s : State) : Option (List Char) :=
  match s.fault with
  | some { kind := .unknownOpcode, pc := pc, opcode := some op } =>
    some ("unknown instruction ".toList ++ decimal op.toNat ++ " at address ".toList ++ decimal pc)
  | _ => none

end Sys2Proof.Machine
end

