-- ==== Sys2Proof/Safety.lean ====
section
/-! DEFINITION. The terms the statements use: the invariant of every reachable state, what a state is about to fetch,
and when a run is safe. -/

namespace Sys2Proof.Machine

/-- The invariant: memory in canonical form within 0..255 (R28 of 20_memory.md); pc from 0 to 256 (R17 of 10_state.md);
the fault record is empty exactly while RUNNING or HALTED, names the pc the engine stopped at, and holds the opcode
exactly when the fetch succeeded (R22, R23; R92 of 60_exceptions.md). -/
structure State.Inv (s : State) : Prop where
  memory_canonical : s.mem.wf = true
  pc_bounded : s.pc ≤ 256
  record_iff_faulted : s.fault.isSome = true ↔ s.run = .faulted
  record_pc : ∀ r, s.fault = some r → r.pc = s.pc
  record_opcode : ∀ r, s.fault = some r → (r.opcode = none ↔ r.kind = .fetchBounds)

/-- The engine is RUNNING, its fetch window fits, and the window holds these bytes (R57 to R59). -/
structure State.FetchesWindow (s : State) (op a b : Byte) : Prop where
  running : s.run = .running
  fits : s.pc + 2 ≤ 255
  opcode : s.mem.read s.pc = op
  operandA : s.mem.read (s.pc + 1) = a
  operandB : s.mem.read (s.pc + 2) = b

/-- The engine is about to run the instruction `i`. -/
def State.Fetches (s : State) (i : Instr) : Prop :=
  ∃ op a b, s.FetchesWindow op a b ∧ decodeWindow s.params.opcodes op a b = .ok i

/-- Address `x` holds a byte of the fetch window that lies past the operand count of the opcode `op`: it is fetched, and
ignored (R44, R52 of 30_encoding.md). -/
def State.IgnoresByte (s : State) (op : Byte) (x : Nat) : Prop := s.pc + operandCount op < x ∧ x ≤ s.pc + 2

/-- The addresses the handler of `i` reads as data, per R29 (20_memory.md), apart from a byte the same instruction has
just stored: CALL whose operand is the address it pushes to reads the return address. -/
def State.dataReads (s : State) (i : Instr) : List Nat :=
  match i with
  | .pop _ | .ret => [s.sp.toNat]
  | .call a => if s.pushAddress = some a then [] else [a.toNat]
  | .nop | .hlt | .push _ | .prn _ | .jmp _ | .jeq _ | .jne _ | .not _ | .ldi _ _ | .add _ _ | .sub _ _ | .mul _ _
  | .mod _ _ | .cmp _ _ | .or _ _ | .xor _ _ | .shl _ _ | .shr _ _ => []

/-- `s` after the handler of `k` raised `f` (R92): the fault record and the run state are written, and nothing else. -/
def State.faultedBy (s : State) (k : Mnemonic) (f : FaultKind) : State :=
  { s with run := .faulted,
           fault := some { kind := f, pc := s.pc, opcode := some (s.params.opcodes.byteOf k) } }

/-- No fault has been raised. -/
def State.Safe (s : State) : Prop := s.run ≠ .faulted

/-- No fault is raised within `k` steps. -/
def State.SafeFor (s : State) (k : Nat) : Prop :=
  ∀ j ≤ k, ∀ t, Sys2Proof.core.run j s = .next t → State.Safe t

end Sys2Proof.Machine
end

