-- ==== Sys2Proof/Certificates/Slice0/Obligations.lean ====
section
/-! DEFINITION. The statements for the provers. The first part says, per instruction, its encoding under the default
map, the next state it answers, and each fault it raises; the second part says what holds of the whole machine.

Every result is an equation that names the whole next state, so the frame is part of it: a field that the record update
does not name is unchanged. Statements that read memory after a store assume the canonical form of the memory before it,
which `Obligations.StepKeepsInvariant` says every step keeps.

D<n> in a docstring is a decision of 92_eei_decisions.md, which the spec marks as its own and the model follows (log
entry 11). That a fault is a next state, FAULTED with its record, is log entry 7, and every clause that names such a
state rests on it. A statement that rests on one of these, on general knowledge or on the model's own choice has basis
'derived'. -/

open Sys2Proof Sys2Proof.Machine

/-! ### Per instruction -/

/-- R67 (41_control_io.md): NOP changes nothing but pc, by 1.
Default opcode byte: general knowledge, log entry 5. -/
def Obligations.NopOnlyAdvancesPc : Prop :=
  (∀ a b, decodeWindow conventionalMap 0x00 a b = .ok .nop) ∧
  encode conventionalMap .nop = [0x00] ∧
  ∀ s, exec .nop s = .next { s with pc := s.pc + 1 }

/-- R66 (41_control_io.md): HLT ends HALTED with pc one past it; at 254 or 255 it never executes; HALTED is final.
The fetch fault at 254 and 255: R58's own inference and D5 (log entry 11), a next state FAULTED by log entry 7. -/
def Obligations.HltHaltsPastItself : Prop :=
  (∀ a b, decodeWindow conventionalMap 0x01 a b = .ok .hlt) ∧
  encode conventionalMap .hlt = [0x01] ∧
  (∀ s, exec .hlt s = .next { s with pc := s.pc + 1, run := .halted }) ∧
  (∀ s t, s.pc = 254 ∨ s.pc = 255 → step s = .next t → t.run = .faulted) ∧
  ∀ s t, s.run = .halted → step s ≠ .next t

/-- R68 (41_control_io.md).
RegisterIndexFault: D3 (R48, R95; log entry 11), a next state FAULTED by log entry 7. -/
def Obligations.LdiLoadsImmediate : Prop :=
  (∀ a b, decodeWindow conventionalMap 0x82 a b = .ok (.ldi a b) ∧ encode conventionalMap (.ldi a b) = [0x82, a, b]) ∧
  ∀ (s : State) (a b : Byte),
    (∀ i : Fin 8, a.toNat = i → exec (.ldi a b) s = .next { s with regs := s.regs.set i b, pc := s.pc + 3 }) ∧
    (7 < a.toNat → exec (.ldi a b) s = .next (s.faultedBy .ldi (.registerIndex a)))

/-- R69 (41_control_io.md): PRN appends the register's value, which the host renders as one more line, its decimal
numeral: digits only, no leading zero, and read in base 10 it is the value. A faulting PRN emits nothing.
The channel as a sequence of bytes: D16. A line as a list of characters without a terminator: log entry 16.
RegisterIndexFault: D3. -/
def Obligations.PrnEmitsRegister : Prop :=
  (∀ a b, decodeWindow conventionalMap 0x47 a b = .ok (.prn a)) ∧
  (∀ a, encode conventionalMap (.prn a) = [0x47, a]) ∧
  (∀ (s : State) (a : Byte),
    (∀ i : Fin 8, a.toNat = i → exec (.prn a) s = .next { s with output := s.output ++ [s.regs[i]], pc := s.pc + 2 }) ∧
    (7 < a.toNat → exec (.prn a) s = .next (s.faultedBy .prn (.registerIndex a)))) ∧
  renderOutput [] = [] ∧
  ∀ (out : List Byte) (v : Byte), ∃ line : List Char, renderOutput (out ++ [v]) = renderOutput out ++ [line] ∧
    line ≠ [] ∧ (∀ c ∈ line, '0' ≤ c ∧ c ≤ '9') ∧ (1 < line.length → line.head? ≠ some '0') ∧
    line.foldl (fun n c => 10 * n + (c.toNat - '0'.toNat)) 0 = v.toNat

/-- R71 (42_alu.md).
Default opcode byte: general knowledge, log entry 5. RegisterIndexFault: D3. -/
def Obligations.AddWritesSumModulo256 : Prop :=
  (∀ a b, decodeWindow conventionalMap 0xA0 a b = .ok (.add a b) ∧ encode conventionalMap (.add a b) = [0xA0, a, b]) ∧
  ∀ (s : State) (a b : Byte), (∀ i j : Fin 8, a.toNat = i → b.toNat = j → exec (.add a b) s =
      .next { s with regs := s.regs.set i (BitVec.ofNat 8 (((s.regs[i]).toNat + (s.regs[j]).toNat) % 256)), pc := s.pc + 3 }) ∧
    (7 < a.toNat → exec (.add a b) s = .next (s.faultedBy .add (.registerIndex a))) ∧
    (a.toNat ≤ 7 → 7 < b.toNat → exec (.add a b) s = .next (s.faultedBy .add (.registerIndex b)))

/-- R72 (42_alu.md): a borrow wraps.
Default opcode byte: general knowledge, log entry 5. Reduction: D2. RegisterIndexFault: D3. -/
def Obligations.SubWritesDifferenceModulo256 : Prop :=
  (∀ a b, decodeWindow conventionalMap 0xA1 a b = .ok (.sub a b) ∧ encode conventionalMap (.sub a b) = [0xA1, a, b]) ∧
  ∀ (s : State) (a b : Byte), (∀ i j : Fin 8, a.toNat = i → b.toNat = j → exec (.sub a b) s =
      .next { s with regs := s.regs.set i (BitVec.ofNat 8 (((s.regs[i]).toNat + 256 - (s.regs[j]).toNat) % 256)), pc := s.pc + 3 }) ∧
    (7 < a.toNat → exec (.sub a b) s = .next (s.faultedBy .sub (.registerIndex a))) ∧
    (a.toNat ≤ 7 → 7 < b.toNat → exec (.sub a b) s = .next (s.faultedBy .sub (.registerIndex b)))

/-- R73 (42_alu.md).
Default opcode byte: general knowledge, log entry 5. Reduction: D2. RegisterIndexFault: D3. -/
def Obligations.MulWritesLowByteOfProduct : Prop :=
  (∀ a b, decodeWindow conventionalMap 0xA2 a b = .ok (.mul a b) ∧ encode conventionalMap (.mul a b) = [0xA2, a, b]) ∧
  ∀ (s : State) (a b : Byte), (∀ i j : Fin 8, a.toNat = i → b.toNat = j → exec (.mul a b) s =
      .next { s with regs := s.regs.set i (BitVec.ofNat 8 ((s.regs[i]).toNat * (s.regs[j]).toNat % 256)), pc := s.pc + 3 }) ∧
    (7 < a.toNat → exec (.mul a b) s = .next (s.faultedBy .mul (.registerIndex a))) ∧
    (a.toNat ≤ 7 → 7 < b.toNat → exec (.mul a b) s = .next (s.faultedBy .mul (.registerIndex b)))

/-- R74 (42_alu.md): FL becomes 0x01 or 0x00; no register changes.
Default opcode byte: general knowledge, log entry 5. RegisterIndexFault: D3. -/
def Obligations.CmpWritesWholeFlagByte : Prop :=
  (∀ a b, decodeWindow conventionalMap 0xA7 a b = .ok (.cmp a b) ∧ encode conventionalMap (.cmp a b) = [0xA7, a, b]) ∧
  ∀ (s : State) (a b : Byte),
    (∀ i j : Fin 8, a.toNat = i → b.toNat = j → s.regs[i] = s.regs[j] →
      exec (.cmp a b) s = .next { s with fl := 0x01, pc := s.pc + 3 }) ∧
    (∀ i j : Fin 8, a.toNat = i → b.toNat = j → s.regs[i] ≠ s.regs[j] →
      exec (.cmp a b) s = .next { s with fl := 0x00, pc := s.pc + 3 }) ∧
    (7 < a.toNat → exec (.cmp a b) s = .next (s.faultedBy .cmp (.registerIndex a))) ∧
    (a.toNat ≤ 7 → 7 < b.toNat → exec (.cmp a b) s = .next (s.faultedBy .cmp (.registerIndex b)))

/-- R75 (42_alu.md), under `EXT_ALU_MODE` = implemented: a zero divisor faults after both register checks.
Default opcode byte: general knowledge, log entry 5. Semantics: D7, log entry 6. DivideByZeroFault: D8. RegisterIndexFault: D3. -/
def Obligations.ModWritesRemainderOrDivideFaults : Prop :=
  (∀ a b, decodeWindow conventionalMap 0xA4 a b = .ok (.mod a b) ∧ encode conventionalMap (.mod a b) = [0xA4, a, b]) ∧
  ∀ (s : State) (a b : Byte), s.params.extAlu = .implemented →
    (∀ i j : Fin 8, a.toNat = i → b.toNat = j → s.regs[j] ≠ 0 → exec (.mod a b) s =
      .next { s with regs := s.regs.set i (BitVec.ofNat 8 ((s.regs[i]).toNat % (s.regs[j]).toNat)), pc := s.pc + 3 }) ∧
    (∀ j : Fin 8, a.toNat ≤ 7 → b.toNat = j → s.regs[j] = 0 →
      exec (.mod a b) s = .next (s.faultedBy .mod .divideByZero)) ∧
    (7 < a.toNat → exec (.mod a b) s = .next (s.faultedBy .mod (.registerIndex a))) ∧
    (a.toNat ≤ 7 → 7 < b.toNat → exec (.mod a b) s = .next (s.faultedBy .mod (.registerIndex b)))

/-- R76 (42_alu.md), under `EXT_ALU_MODE` = implemented: the value of R82, (x * 2^y) mod 256, so 0 from y = 8 on.
Default opcode byte: general knowledge, log entry 5. Semantics: D7, D9, log entry 6. RegisterIndexFault: D3. -/
def Obligations.ShlShiftsLeftByWholeByte : Prop :=
  (∀ a b, decodeWindow conventionalMap 0xAC a b = .ok (.shl a b) ∧ encode conventionalMap (.shl a b) = [0xAC, a, b]) ∧
  ∀ (s : State) (a b : Byte), s.params.extAlu = .implemented →
    (∀ i j : Fin 8, a.toNat = i → b.toNat = j → exec (.shl a b) s =
      .next { s with regs := s.regs.set i (BitVec.ofNat 8 ((s.regs[i]).toNat * 2 ^ (s.regs[j]).toNat % 256)), pc := s.pc + 3 }) ∧
    (7 < a.toNat → exec (.shl a b) s = .next (s.faultedBy .shl (.registerIndex a))) ∧
    (a.toNat ≤ 7 → 7 < b.toNat → exec (.shl a b) s = .next (s.faultedBy .shl (.registerIndex b)))

/-- R77 (42_alu.md), under `EXT_ALU_MODE` = implemented: the value of R82, floor(x / 2^y), so 0 from y = 8 on.
Default opcode byte: general knowledge, log entry 5. Semantics: D7, D9, log entry 6. RegisterIndexFault: D3. -/
def Obligations.ShrShiftsRightByWholeByte : Prop :=
  (∀ a b, decodeWindow conventionalMap 0xAD a b = .ok (.shr a b) ∧ encode conventionalMap (.shr a b) = [0xAD, a, b]) ∧
  ∀ (s : State) (a b : Byte), s.params.extAlu = .implemented →
    (∀ i j : Fin 8, a.toNat = i → b.toNat = j → exec (.shr a b) s =
      .next { s with regs := s.regs.set i (BitVec.ofNat 8 ((s.regs[i]).toNat / 2 ^ (s.regs[j]).toNat)), pc := s.pc + 3 }) ∧
    (7 < a.toNat → exec (.shr a b) s = .next (s.faultedBy .shr (.registerIndex a))) ∧
    (a.toNat ≤ 7 → 7 < b.toNat → exec (.shr a b) s = .next (s.faultedBy .shr (.registerIndex b)))

/-- R78 (42_alu.md), under `EXT_ALU_MODE` = implemented.
Default opcode byte: general knowledge, log entry 5. Semantics: D7, log entry 6. RegisterIndexFault: D3. -/
def Obligations.XorWritesExclusiveOr : Prop :=
  (∀ a b, decodeWindow conventionalMap 0xAB a b = .ok (.xor a b) ∧ encode conventionalMap (.xor a b) = [0xAB, a, b]) ∧
  ∀ (s : State) (a b : Byte), s.params.extAlu = .implemented →
    (∀ i j : Fin 8, a.toNat = i → b.toNat = j → exec (.xor a b) s =
      .next { s with regs := s.regs.set i (s.regs[i] ^^^ s.regs[j]), pc := s.pc + 3 }) ∧
    (7 < a.toNat → exec (.xor a b) s = .next (s.faultedBy .xor (.registerIndex a))) ∧
    (a.toNat ≤ 7 → 7 < b.toNat → exec (.xor a b) s = .next (s.faultedBy .xor (.registerIndex b)))

/-- R79 (42_alu.md), under `EXT_ALU_MODE` = implemented.
Default opcode byte: general knowledge, log entry 5. Semantics: D7, log entry 6. RegisterIndexFault: D3. -/
def Obligations.OrWritesInclusiveOr : Prop :=
  (∀ a b, decodeWindow conventionalMap 0xAA a b = .ok (.or a b) ∧ encode conventionalMap (.or a b) = [0xAA, a, b]) ∧
  ∀ (s : State) (a b : Byte), s.params.extAlu = .implemented →
    (∀ i j : Fin 8, a.toNat = i → b.toNat = j → exec (.or a b) s =
      .next { s with regs := s.regs.set i (s.regs[i] ||| s.regs[j]), pc := s.pc + 3 }) ∧
    (7 < a.toNat → exec (.or a b) s = .next (s.faultedBy .or (.registerIndex a))) ∧
    (a.toNat ≤ 7 → 7 < b.toNat → exec (.or a b) s = .next (s.faultedBy .or (.registerIndex b)))

/-- R80 (42_alu.md), under `EXT_ALU_MODE` = implemented: 255 - x; operand_b is never looked at.
Default opcode byte: general knowledge, log entry 5. Semantics: D7, log entry 6. RegisterIndexFault: D3. -/
def Obligations.NotWritesComplement : Prop :=
  (∀ a b, decodeWindow conventionalMap 0x69 a b = .ok (.not a)) ∧
  (∀ a, encode conventionalMap (.not a) = [0x69, a]) ∧
  ∀ (s : State) (a : Byte), s.params.extAlu = .implemented →
    (∀ i : Fin 8, a.toNat = i → exec (.not a) s =
      .next { s with regs := s.regs.set i (BitVec.ofNat 8 (255 - (s.regs[i]).toNat)), pc := s.pc + 2 }) ∧
    (7 < a.toNat → exec (.not a) s = .next (s.faultedBy .not (.registerIndex a)))

/-- R81 (42_alu.md): under `EXT_ALU_MODE` = fault the six operations raise AluUnsupported for any operands, register indices above 7 among them.
The mode is the parameter of D7. -/
def Obligations.ExtendedAluFaultsWhenUnsupported : Prop :=
  ∀ s : State, s.params.extAlu = .fault →
    (∀ a b, exec (.mod a b) s = .next (s.faultedBy .mod .aluUnsupported)) ∧
    (∀ a b, exec (.shl a b) s = .next (s.faultedBy .shl .aluUnsupported)) ∧
    (∀ a b, exec (.shr a b) s = .next (s.faultedBy .shr .aluUnsupported)) ∧
    (∀ a b, exec (.xor a b) s = .next (s.faultedBy .xor .aluUnsupported)) ∧
    (∀ a b, exec (.or a b) s = .next (s.faultedBy .or .aluUnsupported)) ∧
    (∀ a, exec (.not a) s = .next (s.faultedBy .not .aluUnsupported))

/-- R84 (43_stack.md): SP is decremented, then x[a] as it then stands is stored at the new SP; RegisterIndexFault comes before StackBoundsFault.
Default opcode byte: general knowledge, log entry 5. StackBoundsFault: D4. Order of the steps: D21. RegisterIndexFault: D3. -/
def Obligations.PushDecrementsThenStores : Prop :=
  (∀ a b, decodeWindow conventionalMap 0x45 a b = .ok (.push a)) ∧
  (∀ a, encode conventionalMap (.push a) = [0x45, a]) ∧
  ∀ (s : State) (a : Byte),
    (∀ i : Fin 8, a.toNat = i → s.regs[7] ≠ 0 → exec (.push a) s = .next { s with
      regs := s.regs.set 7 (s.regs[7] - 1),
      mem := s.mem.write (s.regs[7] - 1).toNat (if i = 7 then s.regs[7] - 1 else s.regs[i]),
      pc := s.pc + 2 }) ∧
    (7 < a.toNat → exec (.push a) s = .next (s.faultedBy .push (.registerIndex a))) ∧
    (a.toNat ≤ 7 → s.regs[7] = 0 → exec (.push a) s = .next (s.faultedBy .push (.stackBounds 0)))

/-- R85 (43_stack.md): x[a] is written, then SP as it then stands is checked and incremented, so POP R7 leaves the popped value + 1.
Default opcode byte: general knowledge, log entry 5. StackBoundsFault: D4. Order of the steps: D21. RegisterIndexFault: D3. -/
def Obligations.PopLoadsThenIncrements : Prop :=
  (∀ a b, decodeWindow conventionalMap 0x46 a b = .ok (.pop a)) ∧
  (∀ a, encode conventionalMap (.pop a) = [0x46, a]) ∧
  ∀ (s : State) (a : Byte),
    (∀ i : Fin 8, a.toNat = i → i ≠ 7 → s.regs[7] ≠ 255 → exec (.pop a) s = .next { s with
      regs := (s.regs.set i (s.mem.read (s.regs[7]).toNat)).set 7 (s.regs[7] + 1), pc := s.pc + 2 }) ∧
    (a.toNat = 7 → s.mem.read (s.regs[7]).toNat ≠ 255 → exec (.pop a) s = .next { s with
      regs := s.regs.set 7 (s.mem.read (s.regs[7]).toNat + 1), pc := s.pc + 2 }) ∧
    (7 < a.toNat → exec (.pop a) s = .next (s.faultedBy .pop (.registerIndex a))) ∧
    (a.toNat < 7 → s.regs[7] = 255 → exec (.pop a) s = .next (s.faultedBy .pop (.stackBounds 255))) ∧
    (a.toNat = 7 → s.mem.read (s.regs[7]).toNat = 255 →
      exec (.pop a) s = .next (s.faultedBy .pop (.stackBounds 255)))

/-- R86 (44_control_transfer.md): CALL pushes pc + 2 and goes to the register that the byte at its operand address names,
that byte read after the push; a fault pushes nothing, and StackBoundsFault comes first. A step runs CALL only at pc ≤ 253.
Default opcode byte: general knowledge, log entry 5. StackBoundsFault: D4. Order of the steps: D21. RegisterIndexFault: D3. -/
def Obligations.CallPushesThenJumpsIndirect : Prop :=
  (∀ a b, decodeWindow conventionalMap 0x50 a b = .ok (.call a)) ∧
  (∀ a, encode conventionalMap (.call a) = [0x50, a]) ∧
  ∀ (s : State) (a : Byte), s.mem.wf = true → s.pc ≤ 253 →
    (s.regs[7] = 0 → exec (.call a) s = .next (s.faultedBy .call (.stackBounds 0))) ∧
    (∀ index : Byte, s.regs[7] ≠ 0 →
      index = (if a = s.regs[7] - 1 then BitVec.ofNat 8 (s.pc + 2) else s.mem.read a.toNat) →
      (∀ i : Fin 8, index.toNat = i → exec (.call a) s = .next { s with
        regs := s.regs.set 7 (s.regs[7] - 1),
        mem := s.mem.write (s.regs[7] - 1).toNat (BitVec.ofNat 8 (s.pc + 2)),
        pc := (if i = 7 then s.regs[7] - 1 else s.regs[i]).toNat }) ∧
      (7 < index.toNat → exec (.call a) s = .next (s.faultedBy .call (.registerIndex index))))

/-- R87 (44_control_transfer.md).
Default opcode byte: general knowledge, log entry 5. StackBoundsFault: D4. -/
def Obligations.RetPopsIntoPc : Prop :=
  (∀ a b, decodeWindow conventionalMap 0x11 a b = .ok .ret) ∧
  encode conventionalMap .ret = [0x11] ∧
  ∀ s : State,
    (s.regs[7] ≠ 255 → exec .ret s = .next { s with
      regs := s.regs.set 7 (s.regs[7] + 1), pc := (s.mem.read (s.regs[7]).toNat).toNat }) ∧
    (s.regs[7] = 255 → exec .ret s = .next (s.faultedBy .ret (.stackBounds 255)))

/-- R88 (44_control_transfer.md).
Default opcode byte: general knowledge, log entry 5. RegisterIndexFault: D3. -/
def Obligations.JmpGoesToRegister : Prop :=
  (∀ a b, decodeWindow conventionalMap 0x54 a b = .ok (.jmp a)) ∧
  (∀ a, encode conventionalMap (.jmp a) = [0x54, a]) ∧
  ∀ (s : State) (a : Byte),
    (∀ i : Fin 8, a.toNat = i → exec (.jmp a) s = .next { s with pc := (s.regs[i]).toNat }) ∧
    (7 < a.toNat → exec (.jmp a) s = .next (s.faultedBy .jmp (.registerIndex a)))

/-- R89 (44_control_transfer.md): a JEQ that is not taken goes on at pc + 2 and never faults; that is pc + op[7:6] + 1 under every admissible map.
Default opcode byte: general knowledge, log entry 5. The path not taken: D6. RegisterIndexFault, and only when taken: D3, D25. -/
def Obligations.JeqBranchesWhenEqualBitSet : Prop :=
  (∀ a b, decodeWindow conventionalMap 0x55 a b = .ok (.jeq a)) ∧
  (∀ a, encode conventionalMap (.jeq a) = [0x55, a]) ∧
  (∀ m : OpcodeMap, operandCount (m.byteOf .jeq) = 1) ∧
  ∀ (s : State) (a : Byte),
    (∀ i : Fin 8, s.fl.getLsbD 0 = true → a.toNat = i → exec (.jeq a) s = .next { s with pc := (s.regs[i]).toNat }) ∧
    (s.fl.getLsbD 0 = false → exec (.jeq a) s = .next { s with pc := s.pc + 2 }) ∧
    (s.fl.getLsbD 0 = true → 7 < a.toNat → exec (.jeq a) s = .next (s.faultedBy .jeq (.registerIndex a)))

/-- R90 (44_control_transfer.md): a JNE that is not taken goes on at pc + 2 and never faults.
Default opcode byte: general knowledge, log entry 5. The path not taken: D6. RegisterIndexFault, and only when taken: D3, D25. -/
def Obligations.JneBranchesWhenEqualBitClear : Prop :=
  (∀ a b, decodeWindow conventionalMap 0x56 a b = .ok (.jne a)) ∧
  (∀ a, encode conventionalMap (.jne a) = [0x56, a]) ∧
  (∀ m : OpcodeMap, operandCount (m.byteOf .jne) = 1) ∧
  ∀ (s : State) (a : Byte),
    (∀ i : Fin 8, s.fl.getLsbD 0 = false → a.toNat = i → exec (.jne a) s = .next { s with pc := (s.regs[i]).toNat }) ∧
    (s.fl.getLsbD 0 = true → exec (.jne a) s = .next { s with pc := s.pc + 2 }) ∧
    (s.fl.getLsbD 0 = false → 7 < a.toNat → exec (.jne a) s = .next (s.faultedBy .jne (.registerIndex a)))

/-! ### Reset and load -/

/-- R108, R109 (70_reset_and_hazards.md). The values of R0 to R6, FL and unlisted memory in State.reset are the model's
(log entries 1 to 3) and are not stated. -/
def Obligations.ResetStateFollowsSpec : Prop :=
  State.reset.regs[7] = 0xF4 ∧ State.reset.pc = 0 ∧ State.reset.run = .running

/-- The invariant of Safety.lean holds at reset, and the fault record and the output channel are empty (R113; D15, D16). -/
def Obligations.ResetMeetsInvariant : Prop :=
  State.reset.Inv ∧ State.reset.fault = none ∧ State.reset.output = []

/-- R107 (70_reset_and_hazards.md), for every choice of `INIT_REGS`, `INIT_FL`, `INIT_MEM` and `IMAGE`; the booted state meets the invariant.
Unspecified values as inputs: D10, D11, D12. Empty record and output: D15, D16. -/
def Obligations.BootStateFollowsResetTable : Prop :=
  ∀ (r : ResetInputs) (image : List Byte) (s : State), boot r image = .ok s →
    s.run = .running ∧ s.pc = 0 ∧ s.regs[7] = 0xF4 ∧
    (∀ (i : Nat) (h : i < 7), s.regs[i] = r.initRegs[i]) ∧
    s.fl = r.initFl ∧
    (∀ (k : Nat) (h : k < image.length), s.mem.read k = image[k]) ∧
    (∀ (k : Nat) (h : k < 256), image.length ≤ k → s.mem.read k = r.initMem[k]) ∧
    s.fault = none ∧ s.output = [] ∧ s.params = r.params ∧ s.Inv

/-- R106 (70_reset_and_hazards.md), with the exit statuses of R105's table.
The refusal of a longer image: D13. -/
def Obligations.LoadTakesOneTo256Bytes : Prop :=
  (∀ r image, 1 ≤ image.length → image.length ≤ 256 → ∃ s, boot r image = .ok s) ∧
  (∀ r, boot r [] = .error .emptyProgram) ∧
  (∀ r image, 256 < image.length → boot r image = .error .imageTooLong) ∧
  LoadError.usageError.exitStatus = 1 ∧ LoadError.malformedToken.exitStatus = 1 ∧
  LoadError.notFound.exitStatus = 2 ∧ LoadError.emptyProgram.exitStatus = 3 ∧ LoadError.imageTooLong.exitStatus = 1

/-- R56 (30_encoding.md): a line beginning with # gives no byte, nor does a blank one; a line of eight binary digits gives
the byte they spell, bit 7 first; and lines are read in file order.
That a line of spaces is blank and that lines end at line feeds are the model's choice (log entry 15, DESIGN CHOICE); the
entry's other choices are not stated. -/
def Obligations.ImageTextHoldsOneBytePerLine : Prop :=
  (∀ l ls, parseLines (('#' :: l) :: ls) = parseLines ls) ∧
  (∀ l ls, (∀ c ∈ l, c = ' ') → parseLines (l :: ls) = parseLines ls) ∧
  (∀ (v : Byte) ls bytes, parseLines ls = .ok bytes →
    parseLines ([7, 6, 5, 4, 3, 2, 1, 0].map (fun k => if v.getLsbD k then '1' else '0') :: ls) = .ok (v :: bytes)) ∧
  (∀ ls : List (List Char), ls ≠ [] → (∀ l ∈ ls, '\n' ∉ l) → parseImage (['\n'].intercalate ls) = parseLines ls)

/-! ### Encoding -/

/-- Words of R49's table (30_encoding.md) written out bit by bit, one or more for each format and family.
Bytes the source does not give: log entry 5. -/
def Obligations.SpecWordsDecode : Prop :=
  decodeTableWord 8 0b00000000 = some .nop ∧
  decodeTableWord 8 0b00000001 = some .hlt ∧
  decodeTableWord 8 0b00010001 = some .ret ∧
  decodeTableWord 16 0b00000011_01000101 = some (.push 3) ∧
  decodeTableWord 16 0b00000111_01000111 = some (.prn 7) ∧
  decodeTableWord 16 0b00001011_01010000 = some (.call 0x0B) ∧
  decodeTableWord 16 0b00000010_01101001 = some (.not 2) ∧
  decodeTableWord 24 0b00001000_00000000_10000010 = some (.ldi 0 8) ∧
  decodeTableWord 24 0b00000001_00000010_10100001 = some (.sub 2 1) ∧
  decodeTableWord 8 0b00000010 = none

/-- R43, R49, R54 (30_encoding.md): under every admissible map, every instruction with every operand byte is read back from its encoding, whatever bytes follow it, from a byte sequence and from a fetch window. -/
def Obligations.DecodeOfEncodeIsInstruction : Prop :=
  (∀ (m : OpcodeMap) (i : Instr) (rest : List Byte), decodeBytes m (encode m i ++ rest) = .ok (i, rest)) ∧
  (∀ (m : OpcodeMap) (i : Instr) (op a b : Byte), encode m i <+: [op, a, b] → decodeWindow m op a b = .ok i)

/-- The other direction of the round trip: the bytes a decoded instruction was read from are its encoding. -/
def Obligations.DecodedBytesAreTheEncoding : Prop :=
  ∀ (m : OpcodeMap) (i : Instr) (bytes rest : List Byte),
    decodeBytes m bytes = .ok (i, rest) → bytes = encode m i ++ rest

/-- R51 (30_encoding.md): under the default map exactly the listed byte values spell no instruction, and fetching one raises UnknownOpcode.
Default map: log entry 5. The state after the fault: D14, D15. -/
def Obligations.UndefinedOpcodesAreThe235 : Prop :=
  ∀ op : Byte,
    let undefined : Prop := (0x02 ≤ op.toNat ∧ op.toNat ≤ 0x10) ∨ (0x12 ≤ op.toNat ∧ op.toNat ≤ 0x44) ∨
      (0x48 ≤ op.toNat ∧ op.toNat ≤ 0x4F) ∨ (0x51 ≤ op.toNat ∧ op.toNat ≤ 0x53) ∨
      (0x57 ≤ op.toNat ∧ op.toNat ≤ 0x68) ∨ (0x6A ≤ op.toNat ∧ op.toNat ≤ 0x81) ∨
      (0x83 ≤ op.toNat ∧ op.toNat ≤ 0x9F) ∨ op.toNat = 0xA3 ∨ op.toNat = 0xA5 ∨ op.toNat = 0xA6 ∨
      op.toNat = 0xA8 ∨ op.toNat = 0xA9 ∨ 0xAE ≤ op.toNat
    (∀ a b, decodeWindow conventionalMap op a b = .error (.unknownOpcode op) ↔ undefined) ∧
    (undefined → ∀ (s : State) (a b : Byte), s.params.opcodes = conventionalMap → s.FetchesWindow op a b →
      step s = .next { s with run := .faulted,
                              fault := some { kind := .unknownOpcode, pc := s.pc, opcode := some op } })

/-- R52 (30_encoding.md): window bytes past the operand count the opcode gives may hold any value. The window decodes
and fetches alike; and two states that differ in such bytes of memory alone, where the instruction does not read them as
data, step alike: the same next state (the same fault, if any), apart from those bytes. -/
def Obligations.IgnoredOperandBytesHaveNoEffect : Prop :=
  (∀ (m : OpcodeMap) (op a b a' b' : Byte),
    (operandCount op = 1 → decodeWindow m op a b = decodeWindow m op a b') ∧
    (operandCount op = 0 → decodeWindow m op a b = decodeWindow m op a' b') ∧
    (∀ s t : State, s.params.opcodes = m → s.FetchesWindow op a b → t = { s with mem := t.mem } →
      (operandCount op = 1 ∧ t.FetchesWindow op a b') ∨ (operandCount op = 0 ∧ t.FetchesWindow op a' b') →
      t.fetch = s.fetch)) ∧
  ∀ (s t s' : State) (op a b : Byte), s.mem.wf = true → t.mem.wf = true → s.FetchesWindow op a b →
    t = { s with mem := t.mem } → (∀ x, ¬ s.IgnoresByte op x → t.mem.read x = s.mem.read x) →
    (∀ i x, decodeWindow s.params.opcodes op a b = .ok i → x ∈ s.dataReads i → ¬ s.IgnoresByte op x) →
    step s = .next s' →
    ∃ t', step t = .next t' ∧ t' = { s' with mem := t'.mem } ∧
      ∀ x, ¬ s.IgnoresByte op x → t'.mem.read x = s'.mem.read x

/-! ### The step -/

/-- R61, R64 (40_execution_loop.md): a RUNNING engine whose fetch window fits and decodes runs that instruction; `exec` holds the loop's advance and halt (log entry 9). -/
def Obligations.StepRunsDecodedInstruction : Prop :=
  ∀ (s : State) (op a b : Byte) (i : Instr),
    s.FetchesWindow op a b → decodeWindow s.params.opcodes op a b = .ok i → step s = exec i s

/-- R57 (40_execution_loop.md): a step is taken only while RUNNING, and the initial state is RUNNING with pc = 0.
That every RUNNING state's step answers a next state is R64 with R92 (D14) and log entry 7: a fault is a next state. -/
def Obligations.StepEnabledExactlyWhenRunning : Prop :=
  (∀ s : State, (∃ t, step s = .next t) ↔ s.run = .running) ∧
  State.reset.run = .running ∧ State.reset.pc = 0

/-- R96 (60_exceptions.md): FetchBoundsFault is raised exactly when pc + 2 > 255, before the opcode byte is looked at.
The bound and the pc past 255: D5. The state after the fault: D14, D15. -/
def Obligations.FetchBoundsFaultExactlyPast253 : Prop :=
  (∀ s : State, s.run = .running → 255 < s.pc + 2 →
    step s = .next { s with run := .faulted, fault := some { kind := .fetchBounds, pc := s.pc, opcode := none } }) ∧
  (∀ (s t : State) (r : FaultRecord), s.fault = none → step s = .next t → t.fault = some r → r.kind = .fetchBounds →
    255 < s.pc + 2)

/-- R94 (60_exceptions.md), under any map: the run ends FAULTED with the opcode and address recorded, the message, exit
status 1, and no further step; the message carries the opcode and the address (R23 of 10_state.md), so two such faults
with one message agree in both. How the message writes the two numbers is log entry 16, and is not stated.
The state after the fault: D14, D15. -/
def Obligations.UnknownOpcodeFaultIsFatal : Prop :=
  (∀ (s : State) (op a b : Byte), s.FetchesWindow op a b → (∀ k, s.params.opcodes.byteOf k ≠ op) →
    ∃ t, step s = .next t ∧
      t = { s with run := .faulted, fault := some { kind := .unknownOpcode, pc := s.pc, opcode := some op } } ∧
      exitStatus t = some 1 ∧
      (∃ opcodeText pcText, faultMessage t =
        some ("unknown instruction ".toList ++ opcodeText ++ " at address ".toList ++ pcText)) ∧
      ∀ u, step t ≠ .next u) ∧
  ∀ (s t s' t' : State) (op a b op' a' b' : Byte),
    s.FetchesWindow op a b → (∀ k, s.params.opcodes.byteOf k ≠ op) → step s = .next s' →
    t.FetchesWindow op' a' b' → (∀ k, t.params.opcodes.byteOf k ≠ op') → step t = .next t' →
    faultMessage s' = faultMessage t' → op = op' ∧ s.pc = t.pc

/-- R92 (60_exceptions.md): a step that faults changes the run state and the fault record alone, records the faulting pc and the opcode if it was fetched, and no step follows.
D14 and D15. -/
def Obligations.FaultsArePreciseAndFinal : Prop :=
  ∀ s t : State, step s = .next t → t.run = .faulted →
    (∃ r : FaultRecord, t = { s with run := .faulted, fault := some r } ∧ r.pc = s.pc ∧
      (r.kind = .fetchBounds → r.opcode = none) ∧
      (r.kind ≠ .fetchBounds → r.opcode = some (s.mem.read s.pc))) ∧
    ∀ u, step t ≠ .next u

/-- R63, R65 (40_execution_loop.md): a step ends HALTED exactly when the instruction fetched is HLT; otherwise the engine goes on or has faulted.
No other end of a run: D26. -/
def Obligations.RunHaltsOnlyByHlt : Prop :=
  ∀ s t : State, step s = .next t → (t.run = .halted ↔ s.Fetches .hlt) ∧ (t.run = .running → ∃ u, step t = .next u)

/-- R17, R62: after an instruction that does not fault, pc is its address + op[7:6] + 1 if opcode bit 4 is 0, and a byte if it is 1.
A pc of 256: D5. -/
def Obligations.PcAdvancesWithoutWrap : Prop :=
  ∀ s t : State, step s = .next t → t.run ≠ .faulted →
    (setsPC (s.mem.read s.pc) = false → t.pc = s.pc + operandCount (s.mem.read s.pc) + 1) ∧
    (setsPC (s.mem.read s.pc) = true → t.pc ≤ 255)

/-- R95 (60_exceptions.md): RegisterIndexFault names an index above 7 that the handler checks: never an ignored operand, never the operand of a branch not taken, and for CALL the byte its operand addresses after the push.
The fault and where it is checked: D3, D25. -/
def Obligations.RegisterIndexFaultOnlyWhenUsed : Prop :=
  ∀ (n : Instr) (s t : State) (r : FaultRecord) (x : Byte), s.mem.wf = true → s.pc ≤ 253 →
    s.fault = none → exec n s = .next t → t.fault = some r → r.kind = .registerIndex x →
    7 < x.toNat ∧
    match n with
    | .nop | .hlt | .ret => False
    | .ldi a _ | .prn a | .push a | .pop a | .not a | .jmp a => x = a
    | .add a b | .sub a b | .mul a b | .mod a b | .cmp a b | .or a b | .xor a b | .shl a b | .shr a b =>
      x = a ∨ (a.toNat ≤ 7 ∧ x = b)
    | .jeq a => s.fl.getLsbD 0 = true ∧ x = a
    | .jne a => s.fl.getLsbD 0 = false ∧ x = a
    | .call a => x = if a = s.regs[7] - 1 then BitVec.ofNat 8 (s.pc + 2) else s.mem.read a.toNat

/-- R99 (60_exceptions.md): AluUnsupported is raised only under `EXT_ALU_MODE` = fault and only by the six operations; under the default it is unreachable.
The mode: D7. -/
def Obligations.AluUnsupportedOnlyInFaultMode : Prop :=
  (∀ (s t : State) (r : FaultRecord), s.fault = none → step s = .next t → t.fault = some r → r.kind = .aluUnsupported →
    s.params.extAlu = .fault ∧ ∃ n, s.Fetches n ∧
      match n with
      | .mod _ _ | .shl _ _ | .shr _ _ | .xor _ _ | .or _ _ | .not _ => True
      | .nop | .hlt | .ret | .push _ | .pop _ | .prn _ | .call _ | .jmp _ | .jeq _ | .jne _ | .ldi _ _
      | .add _ _ | .sub _ _ | .mul _ _ | .cmp _ _ => False) ∧
  defaultParams.extAlu = .implemented

/-! ### Frames over every instruction -/

/-- R14 (10_state.md), its "writes" column, over every instruction: a register that changes is the destination, or R7 for the stack operations. -/
def Obligations.OnlyDestinationRegistersChange : Prop :=
  ∀ (n : Instr) (s t : State) (r : Fin 8), exec n s = .next t → t.regs[r] ≠ s.regs[r] →
    match n with
    | .ldi a _ | .add a _ | .sub a _ | .mul a _ | .mod a _ | .or a _ | .xor a _ | .shl a _ | .shr a _ | .not a =>
      a.toNat = r
    | .pop a => a.toNat = r ∨ r = 7
    | .push _ | .call _ | .ret => r = 7
    | .nop | .hlt | .prn _ | .cmp _ _ | .jmp _ | .jeq _ | .jne _ => False

/-- R29 (20_memory.md): PUSH and CALL store one byte, at the decremented SP, when they do not fault; every other byte, and every byte under every other instruction, reads as before. -/
def Obligations.OnlyPushAndCallStore : Prop :=
  ∀ (n : Instr) (s t : State), s.mem.wf = true → exec n s = .next t →
    match n with
    | .push _ | .call _ =>
      (∀ p, s.pushAddress = some p → ∀ x : Nat, x ≠ p.toNat → t.mem.read x = s.mem.read x) ∧
      (s.pushAddress = none → ∀ x : Nat, t.mem.read x = s.mem.read x) ∧
      (t.run = .faulted → s.run ≠ .faulted → ∀ x : Nat, t.mem.read x = s.mem.read x)
    | .nop | .hlt | .ret | .pop _ | .prn _ | .jmp _ | .jeq _ | .jne _ | .not _ | .ldi _ _ | .add _ _ | .sub _ _
    | .mul _ _ | .mod _ _ | .cmp _ _ | .or _ _ | .xor _ _ | .shl _ _ | .shr _ _ =>
      ∀ x : Nat, t.mem.read x = s.mem.read x

/-- R20 (10_state.md): a step that changes FL ran CMP; every instruction but JEQ and JNE does the same whatever FL holds;
and the FL it leaves is CMP's result, which does not depend on the FL before it, or else the FL before it.
That a CMP with an index above 7 faults and leaves FL as it was: D3, D14. -/
def Obligations.OnlyCmpWritesAndOnlyBranchesReadFlag : Prop :=
  (∀ s t : State, step s = .next t → t.fl ≠ s.fl → ∃ a b, s.Fetches (.cmp a b)) ∧
  (∀ (n : Instr) (s t : State) (f : Byte), (∀ a, n ≠ .jeq a ∧ n ≠ .jne a) → (∀ a b, n ≠ .cmp a b) →
    exec n s = .next t → exec n { s with fl := f } = .next { t with fl := f }) ∧
  (∀ (s t : State) (a b f : Byte), exec (.cmp a b) s = .next t →
    exec (.cmp a b) { s with fl := f } =
      .next { t with fl := if a.toNat ≤ 7 ∧ b.toNat ≤ 7 then t.fl else f })

/-- R24 (10_state.md): the output channel changes only by PRN, which appends its register's value; a fault never removes a byte.
D16. -/
def Obligations.OutputOnlyGrowsByPrn : Prop :=
  ∀ s t : State, step s = .next t →
    t.output = s.output ∨
    ∃ (a : Byte) (i : Fin 8), s.Fetches (.prn a) ∧ a.toNat = i ∧ t.output = s.output ++ [s.regs[i]]

/-- R6 (00_scope.md): the parameters of a run are fixed for the whole run. -/
def Obligations.RunKeepsParameters : Prop :=
  ∀ (k : Nat) (s t : State), Sys2Proof.core.run k s = .next t → State.params t = s.params

/-! ### Memory and stack -/

/-- R31, R37 (20_memory.md), for any memory in canonical form: a read gives the byte last written there, and a write leaves every other address alone and keeps the form. -/
def Obligations.ReadReturnsLatestWrite : Prop :=
  ∀ (m : Memory) (a b v : Byte), m.wf = true →
    (m.write a.toNat v).wf = true ∧
    (m.write a.toNat v).read b.toNat = if a = b then v else m.read b.toNat

/-- The canonical form of the memory list: memories in it that read alike at every address of the space are the same list.
The form is the model's choice (log entry 3). -/
def Obligations.CanonicalMemoriesReadingAlikeAreEqual : Prop :=
  ∀ m n : Memory, m.wf = true → n.wf = true → (∀ a : Byte, m.read a.toNat = n.read a.toNat) → m = n

/-- R84, R85 (43_stack.md), the round trip: PUSH Ri then POP Rj, j ≠ 7, leaves Rj equal to the value stored and SP as it was.
For j = 7, R7 is the stored value + 1, by the pseudocode of R85. With i ≠ 7 that is the choice of log entry 11 against the
words of C7 (90_conflicts.md), by which R7 ends as SP before the PUSH. A stored value of 255, whose POP R7 faults, is left
to `Obligations.PopLoadsThenIncrements`. D4 and D21. -/
def Obligations.PushThenPopRestoresStackPointer : Prop :=
  ∀ (s : State) (a c : Byte) (i j : Fin 8), s.mem.wf = true → a.toNat = i → c.toNat = j → s.regs[7] ≠ 0 →
    let stored := if i = 7 then s.regs[7] - 1 else s.regs[i]
    ∃ t, exec (.push a) s = .next t ∧ t.mem.read (s.regs[7] - 1).toNat = stored ∧
      (j ≠ 7 → exec (.pop c) t = .next { s with
        regs := s.regs.set j stored, mem := t.mem, pc := s.pc + 4 }) ∧
      (j = 7 → stored ≠ 255 → exec (.pop c) t = .next { s with
        regs := s.regs.set 7 (stored + 1), mem := t.mem, pc := s.pc + 4 })

/-- R86, R87 (44_control_transfer.md): CALL followed by RET returns pc to exactly pc_at_call + 2 and restores SP.
D4 and D21. -/
def Obligations.CallThenRetReturnsPastCall : Prop :=
  ∀ (s t : State) (a : Byte), s.mem.wf = true → s.pc ≤ 253 → s.run = .running → exec (.call a) s = .next t →
    t.run = .running → exec .ret t = .next { s with mem := t.mem, pc := s.pc + 2 }

/-- R40 (20_memory.md): the byte PUSH or CALL stores is the byte the next fetch of that address reads.
D20. -/
def Obligations.FetchSeesByteJustPushed : Prop :=
  ∀ (s t : State) (a p : Byte), s.mem.wf = true → s.run = .running → s.pushAddress = some p →
    t.run = .running → t.pc ≤ p.toNat →
    (∀ i : Fin 8, a.toNat = i → exec (.push a) s = .next t →
      t.windowByte (p.toNat - t.pc) = if i = 7 then p else s.regs[i]) ∧
    (s.pc ≤ 253 → exec (.call a) s = .next t → (t.windowByte (p.toNat - t.pc)).toNat = s.pc + 2)

/-! ### Headline results -/

/-- From every state that meets the invariant (memory canonical within 0..255, R28; pc from 0 to 256, R17; fault record empty exactly unless FAULTED and naming the stopped pc, R22, R23, R92), a step answers a state that meets it.
D5, D14, D15. -/
def Obligations.StepKeepsInvariant : Prop :=
  ∀ s t : State, s.Inv → step s = .next t → t.Inv

/-- R19, R21 (10_state.md): two runs that start alike but for FL bits 7:1 stay alike but for FL bits 7:1, for any number of
steps, and stop alike.
FL at reset as an input: D11. -/
def Obligations.FlagHighBitsAreUnobservable : Prop :=
  ∀ (k : Nat) (s : State) (f : Byte), f.getLsbD 0 = s.fl.getLsbD 0 →
    (∀ t : State, Sys2Proof.core.run k s = .next t →
      ∃ g : Byte, g.getLsbD 0 = t.fl.getLsbD 0 ∧
        Sys2Proof.core.run k ({ s with fl := f } : State) = .next ({ t with fl := g } : State)) ∧
    (∀ r : Fault, Sys2Proof.core.run k s = .fault r →
      Sys2Proof.core.run k ({ s with fl := f } : State) = .fault r)

/-- R93, R103 (60_exceptions.md): the fault codes, and the exit status of an ended run.
The codes and the statuses: D15. -/
def Obligations.HostStatusFollowsFaultTable : Prop :=
  (FaultKind.unknownOpcode.code = 1 ∧ FaultKind.fetchBounds.code = 2 ∧ (∀ x, (FaultKind.registerIndex x).code = 3) ∧
    (∀ x, (FaultKind.stackBounds x).code = 4) ∧ FaultKind.divideByZero.code = 5 ∧ FaultKind.aluUnsupported.code = 6) ∧
  (∀ s : State, s.run = .halted → exitStatus s = some 0) ∧
  (∀ s : State, s.run = .faulted → exitStatus s = some 1) ∧
  (∀ s : State, s.run = .running → exitStatus s = none)

/-- R57 (40_execution_loop.md), its own words alone: no step unless RUNNING, and the initial state. -/
def Obligations.NoStepUnlessRunning : Prop :=
  (∀ s t : State, step s = .next t → s.run = .running) ∧ State.reset.run = .running ∧ State.reset.pc = 0

/-- R46 (30_encoding.md): the operand count and the sets-PC bit of every byte, defined opcode or not. -/
def Obligations.DecoderReadsCountAndSetsPcOfEveryByte : Prop :=
  ∀ op : Byte, operandCount op = op.toNat / 64 ∧ (setsPC op = true ↔ op.toNat / 16 % 2 = 1)
end

