-- ==== Sys2Proof/Laws/Decode.lean ====
section
/-! SUPPORT. What an admissible opcode map gives the decoder (R50, R54 of 30_encoding.md): bytes and mnemonics
correspond one to one, and the byte's bits say the operand count and who sets the pc. -/

namespace Sys2Proof

theorem Mnemonic.mem_all (k : Mnemonic) : k ∈ Mnemonic.all := by cases k <;> decide

theorem OpcodeMap.byteOf_injective (m : OpcodeMap) {j k : Mnemonic} (h : m.byteOf j = m.byteOf k) : j = k := by
  have hm := m.property
  simp only [OpcodeTable.admissible, Bool.and_eq_true, decide_eq_true_eq] at hm
  exact List.inj_on_of_nodup_map hm.1.1.2 j.mem_all k.mem_all h

@[simp] theorem OpcodeMap.byteOf_inj (m : OpcodeMap) {j k : Mnemonic} : m.byteOf j = m.byteOf k ↔ j = k :=
  ⟨m.byteOf_injective, fun h => h ▸ rfl⟩

/-- Bits 7:6 of a defined opcode are its operand count (R50, constraint 3). -/
@[simp] theorem operandCount_byteOf (m : OpcodeMap) (k : Mnemonic) : operandCount (m.byteOf k) = k.operands := by
  have hm := m.property
  simp only [OpcodeTable.admissible, Bool.and_eq_true, List.all_eq_true, beq_iff_eq] at hm
  rw [← hm.1.2 k k.mem_all]
  have hlt : (m.val.byteOf k).toNat / 64 < 4 := by have := (m.val.byteOf k).isLt; omega
  simp [operandCount, OpcodeMap.byteOf, BitVec.extractLsb'_toNat, Nat.shiftRight_eq_div_pow, Nat.mod_eq_of_lt hlt]

/-- Bit 4 of a defined opcode is 1 exactly for the control transfers (R50, constraint 4). -/
@[simp] theorem setsPC_byteOf (m : OpcodeMap) (k : Mnemonic) : setsPC (m.byteOf k) = k.transfersControl := by
  have hm := m.property
  simp only [OpcodeTable.admissible, Bool.and_eq_true, List.all_eq_true, beq_iff_eq] at hm
  exact hm.2 k k.mem_all

theorem mnemonicOf_eq_some {m : OpcodeMap} {op : Byte} {k : Mnemonic} : mnemonicOf m op = some k ↔ m.byteOf k = op := by
  constructor
  · intro h
    simpa using List.find?_some h
  · rintro rfl
    cases hf : mnemonicOf m (m.byteOf k) with
    | none => exact absurd (List.find?_eq_none.mp hf k k.mem_all) (by simp)
    | some j => exact congrArg some (m.byteOf_injective (by simpa using List.find?_some hf))

@[simp] theorem mnemonicOf_byteOf (m : OpcodeMap) (k : Mnemonic) : mnemonicOf m (m.byteOf k) = some k :=
  mnemonicOf_eq_some.mpr rfl

theorem mnemonicOf_eq_none {m : OpcodeMap} {op : Byte} : mnemonicOf m op = none ↔ ∀ k, m.byteOf k ≠ op := by
  simp [mnemonicOf, List.find?_eq_none, Mnemonic.mem_all]

@[simp] theorem decodeWindow_byteOf (m : OpcodeMap) (k : Mnemonic) (a b : Byte) :
    decodeWindow m (m.byteOf k) a b = .ok (instrOf k a b) := by
  simp [decodeWindow]

/-- What a window that decodes holds. -/
theorem decodeWindow_eq_ok {m : OpcodeMap} {op a b : Byte} {i : Instr} :
    decodeWindow m op a b = .ok i ↔ ∃ k, m.byteOf k = op ∧ i = instrOf k a b := by
  unfold decodeWindow
  constructor
  · intro h
    split at h
    · cases h
    · rename_i k hk
      exact ⟨k, mnemonicOf_eq_some.mp hk, by cases h; rfl⟩
  · rintro ⟨k, rfl, rfl⟩
    simp

theorem decodeWindow_eq_error {m : OpcodeMap} {op a b : Byte} {e : DecodeError} :
    decodeWindow m op a b = .error e ↔ e = .unknownOpcode op ∧ ∀ k, m.byteOf k ≠ op := by
  unfold decodeWindow
  split
  · rename_i h
    simp [mnemonicOf_eq_none.mp h, eq_comm]
  · rename_i k h
    simpa using fun _ => ⟨k, mnemonicOf_eq_some.mp h⟩

@[simp] theorem mnemonic_instrOf (k : Mnemonic) (a b : Byte) : (instrOf k a b).mnemonic = k := by cases k <;> rfl

/-- The mnemonic of a decoded window is the one whose byte is its opcode. -/
theorem byteOf_mnemonic_of_decodeWindow {m : OpcodeMap} {op a b : Byte} {i : Instr}
    (h : decodeWindow m op a b = .ok i) : m.byteOf i.mnemonic = op := by
  obtain ⟨k, rfl, rfl⟩ := decodeWindow_eq_ok.mp h
  simp

end Sys2Proof
end

