-- ==== Sys2Proof/Laws/Memory.lean ====
section
/-! SUPPORT. The laws of memory: a read after a write, every operation keeps the canonical form, and canonical memories
that read alike are equal. -/

namespace Sys2Proof.Machine

@[simp] theorem Memory.read_nil (a : Nat) : Memory.read [] a = Config.unlistedByte := rfl

theorem Memory.read_cons (k a : Nat) (v : Byte) (rest : Memory) :
    Memory.read ((k, v) :: rest) a = if k = a then v else Memory.read rest a := rfl

/-- An address below every listed one is unlisted. -/
theorem Memory.read_of_lt {lo a : Nat} {m : Memory} (h : Memory.wfFrom lo m = true) (ha : a < lo) :
    m.read a = Config.unlistedByte := by
  induction m generalizing lo with
  | nil => rfl
  | cons c rest ih =>
    obtain ⟨k, v⟩ := c
    simp only [Memory.wfFrom, Bool.and_eq_true, decide_eq_true_eq] at h
    rw [Memory.read_cons, if_neg (by omega)]
    exact ih h.2 (by omega)

theorem Memory.wfFrom_mono {lo lo' : Nat} {m : Memory} (h : Memory.wfFrom lo m = true) (hl : lo' ≤ lo) :
    Memory.wfFrom lo' m = true := by
  cases m with
  | nil => rfl
  | cons c rest =>
    obtain ⟨k, v⟩ := c
    simp only [Memory.wfFrom, Bool.and_eq_true, decide_eq_true_eq] at h ⊢
    exact ⟨⟨⟨by omega, h.1.1.2⟩, h.1.2⟩, h.2⟩

/-- Reading after a write, at the written address and at every other. -/
theorem Memory.read_write_from {lo : Nat} {m : Memory} (h : Memory.wfFrom lo m = true) (a b : Nat) (v : Byte) :
    (m.write a v).read b = if a = b then v else m.read b := by
  induction m generalizing lo with
  | nil =>
    unfold Memory.write
    split <;> simp_all [Memory.read]
  | cons c rest ih =>
    obtain ⟨k, w⟩ := c
    simp only [Memory.wfFrom, Bool.and_eq_true, decide_eq_true_eq] at h
    have hrest : ∀ x < k + 1, Memory.read rest x = Config.unlistedByte := fun x hx => Memory.read_of_lt h.2 hx
    unfold Memory.write
    split
    · have ha := hrest a (by omega)
      split
      · by_cases hab : a = b
        · subst hab
          rw [Memory.read_cons, if_neg (by omega), if_pos rfl]
          simp_all
        · rw [if_neg hab]
      · rw [Memory.read_cons]
    · split
      · have ha := hrest k (by omega)
        split <;> simp only [Memory.read_cons] <;> by_cases hab : k = b <;> simp_all
      · simp only [Memory.read_cons, ih h.2]
        split <;> split <;> simp_all

theorem Memory.wfFrom_write {lo : Nat} {m : Memory} (h : Memory.wfFrom lo m = true) {a : Nat} (hlo : lo ≤ a)
    (ha : a ≤ 255) (v : Byte) : Memory.wfFrom lo (m.write a v) = true := by
  induction m generalizing lo with
  | nil =>
    unfold Memory.write
    split <;> simp_all [Memory.wfFrom]
  | cons c rest ih =>
    obtain ⟨k, w⟩ := c
    simp only [Memory.wfFrom, Bool.and_eq_true, decide_eq_true_eq] at h
    obtain ⟨⟨⟨h1, h2⟩, h3⟩, h4⟩ := h
    unfold Memory.write
    split
    · split
      · simp [Memory.wfFrom, h1, h2, h3, h4]
      · rename_i hak hv
        simp [Memory.wfFrom, hlo, ha, hv, h2, h3, h4]
        omega
    · split
      · split
        · exact Memory.wfFrom_mono h4 (by omega)
        · rename_i hv
          simp_all [Memory.wfFrom]
      · simp only [Memory.wfFrom, Bool.and_eq_true, decide_eq_true_eq]
        exact ⟨⟨⟨h1, h2⟩, h3⟩, ih h4 (by omega)⟩

/-- A write to an address of the space keeps the canonical form. -/
theorem Memory.wf_write {m : Memory} (h : m.wf = true) {a : Nat} (ha : a ≤ 255) (v : Byte) : (m.write a v).wf = true :=
  Memory.wfFrom_write h (Nat.zero_le a) ha v

theorem Memory.wf_nil : Memory.wf [] = true := rfl

theorem Memory.wf_writeBytes {m : Memory} (h : m.wf = true) {a : Nat} (bytes : List Byte)
    (ha : a + bytes.length ≤ 256) : (m.writeBytes a bytes).wf = true := by
  induction bytes generalizing m a with
  | nil => exact h
  | cons v rest ih =>
    simp only [List.length_cons] at ha
    exact ih (Memory.wf_write h (by omega) v) (by omega)

/-- After a byte sequence is written, its addresses read its bytes and every other address reads as before. -/
theorem Memory.read_writeBytes {m : Memory} (h : m.wf = true) {a : Nat} (bytes : List Byte)
    (ha : a + bytes.length ≤ 256) (b : Nat) :
    (m.writeBytes a bytes).read b = if a ≤ b then bytes.getD (b - a) (m.read b) else m.read b := by
  induction bytes generalizing m a with
  | nil => simp [Memory.writeBytes]
  | cons v rest ih =>
    simp only [List.length_cons] at ha
    rw [Memory.writeBytes, ih (Memory.wf_write h (by omega) v) (by omega), Memory.read_write_from h]
    by_cases hab : a = b
    · subst hab; simp
    · by_cases hlt : a < b
      · obtain ⟨d, rfl⟩ : ∃ d, b = a + 1 + d := ⟨b - (a + 1), by omega⟩
        have e1 : a + 1 + d - (a + 1) = d := by omega
        have e2 : a + 1 + d - a = d + 1 := by omega
        simp [e1, e2, hab]
        omega
      · rw [if_neg (by omega), if_neg hab, if_neg (by omega)]

end Sys2Proof.Machine
end

