-- ==== Sys2Proof/Laws/State.lean ====
section
/-! SUPPORT. One lemma per field per state update, so that no later proof unfolds a record update. -/

namespace Sys2Proof.Machine

variable (s : State)

/-! ### setReg -/

@[simp] theorem State.setReg_regs (i : Fin 8) (v : Byte) : (s.setReg i v).regs = s.regs.set i v := rfl
@[simp] theorem State.setReg_pc (i : Fin 8) (v : Byte) : (s.setReg i v).pc = s.pc := rfl
@[simp] theorem State.setReg_fl (i : Fin 8) (v : Byte) : (s.setReg i v).fl = s.fl := rfl
@[simp] theorem State.setReg_run (i : Fin 8) (v : Byte) : (s.setReg i v).run = s.run := rfl
@[simp] theorem State.setReg_fault (i : Fin 8) (v : Byte) : (s.setReg i v).fault = s.fault := rfl
@[simp] theorem State.setReg_output (i : Fin 8) (v : Byte) : (s.setReg i v).output = s.output := rfl
@[simp] theorem State.setReg_mem (i : Fin 8) (v : Byte) : (s.setReg i v).mem = s.mem := rfl
@[simp] theorem State.setReg_params (i : Fin 8) (v : Byte) : (s.setReg i v).params = s.params := rfl

/-! ### setFl -/

@[simp] theorem State.setFl_regs (v : Byte) : (s.setFl v).regs = s.regs := rfl
@[simp] theorem State.setFl_pc (v : Byte) : (s.setFl v).pc = s.pc := rfl
@[simp] theorem State.setFl_fl (v : Byte) : (s.setFl v).fl = v := rfl
@[simp] theorem State.setFl_run (v : Byte) : (s.setFl v).run = s.run := rfl
@[simp] theorem State.setFl_fault (v : Byte) : (s.setFl v).fault = s.fault := rfl
@[simp] theorem State.setFl_output (v : Byte) : (s.setFl v).output = s.output := rfl
@[simp] theorem State.setFl_mem (v : Byte) : (s.setFl v).mem = s.mem := rfl
@[simp] theorem State.setFl_params (v : Byte) : (s.setFl v).params = s.params := rfl

/-! ### emit -/

@[simp] theorem State.emit_regs (v : Byte) : (s.emit v).regs = s.regs := rfl
@[simp] theorem State.emit_pc (v : Byte) : (s.emit v).pc = s.pc := rfl
@[simp] theorem State.emit_fl (v : Byte) : (s.emit v).fl = s.fl := rfl
@[simp] theorem State.emit_run (v : Byte) : (s.emit v).run = s.run := rfl
@[simp] theorem State.emit_fault (v : Byte) : (s.emit v).fault = s.fault := rfl
@[simp] theorem State.emit_output (v : Byte) : (s.emit v).output = s.output ++ [v] := rfl
@[simp] theorem State.emit_mem (v : Byte) : (s.emit v).mem = s.mem := rfl
@[simp] theorem State.emit_params (v : Byte) : (s.emit v).params = s.params := rfl

/-! ### store -/

@[simp] theorem State.store_regs (a v : Byte) : (s.store a v).regs = s.regs := rfl
@[simp] theorem State.store_pc (a v : Byte) : (s.store a v).pc = s.pc := rfl
@[simp] theorem State.store_fl (a v : Byte) : (s.store a v).fl = s.fl := rfl
@[simp] theorem State.store_run (a v : Byte) : (s.store a v).run = s.run := rfl
@[simp] theorem State.store_fault (a v : Byte) : (s.store a v).fault = s.fault := rfl
@[simp] theorem State.store_output (a v : Byte) : (s.store a v).output = s.output := rfl
@[simp] theorem State.store_mem (a v : Byte) : (s.store a v).mem = s.mem.write a.toNat v := rfl
@[simp] theorem State.store_params (a v : Byte) : (s.store a v).params = s.params := rfl

/-! ### storeAtSp -/

@[simp] theorem State.storeAtSp_regs (v : Byte) : (s.storeAtSp v).regs = s.regs := rfl
@[simp] theorem State.storeAtSp_pc (v : Byte) : (s.storeAtSp v).pc = s.pc := rfl
@[simp] theorem State.storeAtSp_fl (v : Byte) : (s.storeAtSp v).fl = s.fl := rfl
@[simp] theorem State.storeAtSp_run (v : Byte) : (s.storeAtSp v).run = s.run := rfl
@[simp] theorem State.storeAtSp_fault (v : Byte) : (s.storeAtSp v).fault = s.fault := rfl
@[simp] theorem State.storeAtSp_output (v : Byte) : (s.storeAtSp v).output = s.output := rfl
@[simp] theorem State.storeAtSp_mem (v : Byte) : (s.storeAtSp v).mem = s.mem.write s.sp.toNat v := rfl
@[simp] theorem State.storeAtSp_params (v : Byte) : (s.storeAtSp v).params = s.params := rfl

/-! ### enterFaulted -/

@[simp] theorem State.enterFaulted_regs (r : FaultRecord) : (s.enterFaulted r).regs = s.regs := rfl
@[simp] theorem State.enterFaulted_pc (r : FaultRecord) : (s.enterFaulted r).pc = s.pc := rfl
@[simp] theorem State.enterFaulted_fl (r : FaultRecord) : (s.enterFaulted r).fl = s.fl := rfl
@[simp] theorem State.enterFaulted_run (r : FaultRecord) : (s.enterFaulted r).run = .faulted := rfl
@[simp] theorem State.enterFaulted_fault (r : FaultRecord) : (s.enterFaulted r).fault = some r := rfl
@[simp] theorem State.enterFaulted_output (r : FaultRecord) : (s.enterFaulted r).output = s.output := rfl
@[simp] theorem State.enterFaulted_mem (r : FaultRecord) : (s.enterFaulted r).mem = s.mem := rfl
@[simp] theorem State.enterFaulted_params (r : FaultRecord) : (s.enterFaulted r).params = s.params := rfl

/-! ### jump -/

@[simp] theorem State.jump_regs (v : Byte) : (s.jump v).regs = s.regs := rfl
@[simp] theorem State.jump_pc (v : Byte) : (s.jump v).pc = v.toNat := rfl
@[simp] theorem State.jump_fl (v : Byte) : (s.jump v).fl = s.fl := rfl
@[simp] theorem State.jump_run (v : Byte) : (s.jump v).run = s.run := rfl
@[simp] theorem State.jump_fault (v : Byte) : (s.jump v).fault = s.fault := rfl
@[simp] theorem State.jump_output (v : Byte) : (s.jump v).output = s.output := rfl
@[simp] theorem State.jump_mem (v : Byte) : (s.jump v).mem = s.mem := rfl
@[simp] theorem State.jump_params (v : Byte) : (s.jump v).params = s.params := rfl

/-! ### fallThrough -/

@[simp] theorem State.fallThrough_regs : (s.fallThrough).regs = s.regs := rfl
@[simp] theorem State.fallThrough_pc : (s.fallThrough).pc = s.pc + 2 := rfl
@[simp] theorem State.fallThrough_fl : (s.fallThrough).fl = s.fl := rfl
@[simp] theorem State.fallThrough_run : (s.fallThrough).run = s.run := rfl
@[simp] theorem State.fallThrough_fault : (s.fallThrough).fault = s.fault := rfl
@[simp] theorem State.fallThrough_output : (s.fallThrough).output = s.output := rfl
@[simp] theorem State.fallThrough_mem : (s.fallThrough).mem = s.mem := rfl
@[simp] theorem State.fallThrough_params : (s.fallThrough).params = s.params := rfl

/-! ### advance -/

@[simp] theorem State.advance_regs (op : Byte) : (s.advance op).regs = s.regs := by
  unfold State.advance; split <;> rfl
@[simp] theorem State.advance_pc (op : Byte) : (s.advance op).pc = if setsPC op then s.pc else s.pc + operandCount op + 1 := by
  unfold State.advance; split <;> rfl
@[simp] theorem State.advance_fl (op : Byte) : (s.advance op).fl = s.fl := by
  unfold State.advance; split <;> rfl
@[simp] theorem State.advance_run (op : Byte) : (s.advance op).run = s.run := by
  unfold State.advance; split <;> rfl
@[simp] theorem State.advance_fault (op : Byte) : (s.advance op).fault = s.fault := by
  unfold State.advance; split <;> rfl
@[simp] theorem State.advance_output (op : Byte) : (s.advance op).output = s.output := by
  unfold State.advance; split <;> rfl
@[simp] theorem State.advance_mem (op : Byte) : (s.advance op).mem = s.mem := by
  unfold State.advance; split <;> rfl
@[simp] theorem State.advance_params (op : Byte) : (s.advance op).params = s.params := by
  unfold State.advance; split <;> rfl

/-! ### haltAfter -/

@[simp] theorem State.haltAfter_regs (k : Mnemonic) : (s.haltAfter k).regs = s.regs := by
  unfold State.haltAfter; split <;> rfl
@[simp] theorem State.haltAfter_pc (k : Mnemonic) : (s.haltAfter k).pc = s.pc := by
  unfold State.haltAfter; split <;> rfl
@[simp] theorem State.haltAfter_fl (k : Mnemonic) : (s.haltAfter k).fl = s.fl := by
  unfold State.haltAfter; split <;> rfl
@[simp] theorem State.haltAfter_run (k : Mnemonic) : (s.haltAfter k).run = if k = .hlt then .halted else s.run := by
  unfold State.haltAfter; split <;> rfl
@[simp] theorem State.haltAfter_fault (k : Mnemonic) : (s.haltAfter k).fault = s.fault := by
  unfold State.haltAfter; split <;> rfl
@[simp] theorem State.haltAfter_output (k : Mnemonic) : (s.haltAfter k).output = s.output := by
  unfold State.haltAfter; split <;> rfl
@[simp] theorem State.haltAfter_mem (k : Mnemonic) : (s.haltAfter k).mem = s.mem := by
  unfold State.haltAfter; split <;> rfl
@[simp] theorem State.haltAfter_params (k : Mnemonic) : (s.haltAfter k).params = s.params := by
  unfold State.haltAfter; split <;> rfl

/-! ### The loop's advance and halt do not look at FL -/

theorem State.advance_setFl (v op : Byte) : (s.setFl v).advance op = (s.advance op).setFl v := by
  unfold State.advance; split <;> rfl

theorem State.haltAfter_setFl (v : Byte) (k : Mnemonic) : (s.setFl v).haltAfter k = (s.haltAfter k).setFl v := by
  unfold State.haltAfter; split <;> rfl

/-! ### Reads of registers and of the stack pointer -/

theorem State.reg_setReg (i j : Fin 8) (v : Byte) : (s.setReg i v).reg j = if i = j then v else s.reg j := by
  simp [State.reg, State.setReg, Vector.getElem_set, Fin.ext_iff]

@[simp] theorem State.reg_setReg_self (i : Fin 8) (v : Byte) : (s.setReg i v).reg i = v := by
  simp [State.reg_setReg]

@[simp] theorem State.sp_setReg_sp (v : Byte) : (s.setReg spIndex v).sp = v := State.reg_setReg_self s spIndex v

theorem State.sp_setReg (i : Fin 8) (v : Byte) : (s.setReg i v).sp = if i = spIndex then v else s.sp :=
  State.reg_setReg s i spIndex v

@[simp] theorem State.reg_store (a v : Byte) (i : Fin 8) : (s.store a v).reg i = s.reg i := rfl
@[simp] theorem State.reg_storeAtSp (v : Byte) (i : Fin 8) : (s.storeAtSp v).reg i = s.reg i := rfl
@[simp] theorem State.sp_store (a v : Byte) : (s.store a v).sp = s.sp := rfl
@[simp] theorem State.sp_storeAtSp (v : Byte) : (s.storeAtSp v).sp = s.sp := rfl
@[simp] theorem State.load_setReg (i : Fin 8) (v a : Byte) : (s.setReg i v).load a = s.load a := rfl

end Sys2Proof.Machine
end

