-- ==== Sys2Proof/Laws/Ops.lean ====
section
/-! SUPPORT. One lemma per shared operation, saying everything it can do: `CheckReg`, the stack pointer's moves, the
operand forms, and the end of a step. -/

namespace Sys2Proof.Machine

/-! ### Operands -/

theorem checkReg_ok {a : Byte} {i : Fin 8} (h : a.toNat = i) : checkReg a = .ok i := by
  unfold checkReg
  rw [dif_pos (by omega)]
  exact congrArg Except.ok (Fin.ext h)

theorem checkReg_error {a : Byte} (h : 7 < a.toNat) : checkReg a = .error (.registerIndex a) := by
  unfold checkReg
  rw [dif_neg (by omega)]

/-- `CheckReg` answers the register named, or raises RegisterIndexFault. -/
theorem checkReg_cases (a : Byte) :
    (∃ i : Fin 8, a.toNat = i ∧ checkReg a = .ok i) ∨ (7 < a.toNat ∧ checkReg a = .error (.registerIndex a)) := by
  by_cases h : a.toNat < 8
  · exact .inl ⟨⟨a.toNat, h⟩, rfl, checkReg_ok rfl⟩
  · exact .inr ⟨by omega, checkReg_error (by omega)⟩

theorem State.readOperand_ok (s : State) {a : Byte} {i : Fin 8} (h : a.toNat = i) :
    s.readOperand a = .ok (s.reg i) := by
  simp only [State.readOperand, checkReg_ok h]; rfl

theorem State.readOperand_error (s : State) {a : Byte} (h : 7 < a.toNat) :
    s.readOperand a = .error (.registerIndex a) := by
  simp only [State.readOperand, checkReg_error h]; rfl

theorem State.branch_not_taken (s : State) (a : Byte) : s.branch false a = .ok s.fallThrough := rfl

theorem State.branch_taken_ok (s : State) {a : Byte} {i : Fin 8} (h : a.toNat = i) :
    s.branch true a = .ok (s.jump (s.reg i)) := by
  simp only [State.branch, s.readOperand_ok h]; rfl

theorem State.branch_taken_error (s : State) {a : Byte} (h : 7 < a.toNat) :
    s.branch true a = .error (.registerIndex a) := by
  simp only [State.branch, s.readOperand_error h]; rfl

/-! ### Stack pointer -/

theorem spIndex_eq : spIndex = 7 := rfl

theorem State.sp_eq (s : State) : s.sp = s.regs[7] := rfl

theorem State.decrementSp_ok {s : State} (h : s.sp ≠ 0) : s.decrementSp = .ok (s.setReg spIndex (s.sp - 1)) := if_neg h

theorem State.decrementSp_error {s : State} (h : s.sp = 0) : s.decrementSp = .error (.stackBounds 0) := by
  simp [State.decrementSp, h]

theorem State.incrementSp_ok {s : State} (h : s.sp ≠ 255) : s.incrementSp = .ok (s.setReg spIndex (s.sp + 1)) := if_neg h

theorem State.incrementSp_error {s : State} (h : s.sp = 255) : s.incrementSp = .error (.stackBounds 255) := by
  simp [State.incrementSp, h]

theorem State.pushAddress_some {s : State} (h : s.sp ≠ 0) : s.pushAddress = some (s.sp - 1) := if_neg h

theorem State.pushAddress_none {s : State} (h : s.sp = 0) : s.pushAddress = none := if_pos h

/-! ### The flag -/

@[simp] theorem compareFlag_self (x : Byte) : compareFlag x x = 0x01 := if_pos rfl

theorem compareFlag_of_ne {x y : Byte} (h : x ≠ y) : compareFlag x y = 0x00 := if_neg h

/-! ### The end of a step -/

/-- A raise: R92. -/
theorem State.conclude_error (s : State) (k : Mnemonic) (f : FaultKind) :
    s.conclude k (.error f) = .next (s.enterFaulted { kind := f, pc := s.pc, opcode := some (s.opcode k) }) := rfl

theorem State.conclude_ok (s : State) (k : Mnemonic) (t : State) :
    s.conclude k (.ok t) = .next ((t.advance (s.opcode k)).haltAfter k) := rfl

/-- The advance after a handler whose opcode has bit 4 clear: pc + operand count + 1 (R62). -/
theorem State.conclude_sequential (s t : State) {k : Mnemonic} (hk : k.transfersControl = false) (hh : k ≠ .hlt) :
    s.conclude k (.ok t) = .next { t with pc := t.pc + k.operands + 1 } := by
  simp [State.conclude, State.advance, State.haltAfter, State.opcode, hk, hh]

/-- No advance after a control transfer (R62). -/
theorem State.conclude_transfer (s t : State) {k : Mnemonic} (hk : k.transfersControl = true) :
    s.conclude k (.ok t) = .next t := by
  have hh : k ≠ .hlt := by rintro rfl; cases hk
  simp [State.conclude, State.advance, State.haltAfter, State.opcode, hk, hh]

theorem State.conclude_hlt (s t : State) : s.conclude .hlt (.ok t) = .next { t with pc := t.pc + 1, run := .halted } := by
  simp [State.conclude, State.advance, State.haltAfter, State.opcode, Mnemonic.transfersControl, Mnemonic.operands]

/-- Every handler's step ends in a next state. -/
theorem State.conclude_next (s : State) (k : Mnemonic) (r : Except FaultKind State) : ∃ t, s.conclude k r = .next t := by
  cases r <;> exact ⟨_, rfl⟩

end Sys2Proof.Machine
end

