-- ==== Sys2Proof/Laws/Exec.lean ====
section
/-! SUPPORT. What an instruction can do, said once: the ways it takes effect (`Effect`), the ways it raises a fault
(`Raises`), and the inversion lemma `exec_cases` that later proofs cite instead of unfolding a meaning. -/

namespace Sys2Proof.Machine

/-- The two-operand ALU instructions that always compute, with their operands and function. -/
inductive BinaryAlu : Instr → Byte → Byte → (Byte → Byte → Byte) → Prop where
  | add (a b : Byte) : BinaryAlu (.add a b) a b aluAdd
  | sub (a b : Byte) : BinaryAlu (.sub a b) a b aluSub
  | mul (a b : Byte) : BinaryAlu (.mul a b) a b aluMul

/-- Those that `EXT_ALU_MODE` gates (R81), MOD apart. -/
inductive ExtendedBinaryAlu : Instr → Byte → Byte → (Byte → Byte → Byte) → Prop where
  | shl (a b : Byte) : ExtendedBinaryAlu (.shl a b) a b aluShl
  | shr (a b : Byte) : ExtendedBinaryAlu (.shr a b) a b aluShr
  | xor (a b : Byte) : ExtendedBinaryAlu (.xor a b) a b aluXor
  | or (a b : Byte) : ExtendedBinaryAlu (.or a b) a b aluOr

/-- The six instructions that R81 names. -/
inductive IsExtendedAlu : Instr → Prop where
  | binary {i : Instr} {a b : Byte} {f : Byte → Byte → Byte} (h : ExtendedBinaryAlu i a b f) : IsExtendedAlu i
  | mod (a b : Byte) : IsExtendedAlu (.mod a b)
  | not (a : Byte) : IsExtendedAlu (.not a)

/-- The state a handler that completes leaves, before the loop's advance. -/
inductive Effect (s : State) : Instr → State → Prop where
  | nop : Effect s .nop s
  | hlt : Effect s .hlt s
  | ldi {a b : Byte} {i : Fin 8} (ha : a.toNat = i) : Effect s (.ldi a b) (s.setReg i b)
  | prn {a : Byte} {i : Fin 8} (ha : a.toNat = i) : Effect s (.prn a) (s.emit (s.reg i))
  | binary {n : Instr} {a b : Byte} {f : Byte → Byte → Byte} {i j : Fin 8} (h : BinaryAlu n a b f) (ha : a.toNat = i)
      (hb : b.toNat = j) : Effect s n (s.setReg i (f (s.reg i) (s.reg j)))
  | extended {n : Instr} {a b : Byte} {f : Byte → Byte → Byte} {i j : Fin 8} (h : ExtendedBinaryAlu n a b f)
      (hm : s.params.extAlu = .implemented) (ha : a.toNat = i) (hb : b.toNat = j) :
      Effect s n (s.setReg i (f (s.reg i) (s.reg j)))
  | mod {a b : Byte} {i j : Fin 8} (hm : s.params.extAlu = .implemented) (ha : a.toNat = i) (hb : b.toNat = j)
      (h0 : s.reg j ≠ 0) : Effect s (.mod a b) (s.setReg i (aluMod (s.reg i) (s.reg j)))
  | not {a : Byte} {i : Fin 8} (hm : s.params.extAlu = .implemented) (ha : a.toNat = i) :
      Effect s (.not a) (s.setReg i (aluNot (s.reg i)))
  | cmp {a b : Byte} {i j : Fin 8} (ha : a.toNat = i) (hb : b.toNat = j) :
      Effect s (.cmp a b) (s.setFl (compareFlag (s.reg i) (s.reg j)))
  | push {a : Byte} {i : Fin 8} (ha : a.toNat = i) (hsp : s.sp ≠ 0) :
      Effect s (.push a)
        ((s.setReg spIndex (s.sp - 1)).store (s.sp - 1) ((s.setReg spIndex (s.sp - 1)).reg i))
  | pop {a : Byte} {i : Fin 8} (ha : a.toNat = i) (hsp : (s.setReg i (s.load s.sp)).sp ≠ 255) :
      Effect s (.pop a) ((s.setReg i (s.load s.sp)).setReg spIndex ((s.setReg i (s.load s.sp)).sp + 1))
  | call {a : Byte} {i : Fin 8} (hsp : s.sp ≠ 0)
      (ha : (((s.setReg spIndex (s.sp - 1)).store (s.sp - 1) s.returnAddress).load a).toNat = i) :
      Effect s (.call a) (((s.setReg spIndex (s.sp - 1)).store (s.sp - 1) s.returnAddress).jump
        ((s.setReg spIndex (s.sp - 1)).reg i))
  | ret (hsp : s.sp ≠ 255) : Effect s .ret ((s.setReg spIndex (s.sp + 1)).jump (s.load s.sp))
  | jmp {a : Byte} {i : Fin 8} (ha : a.toNat = i) : Effect s (.jmp a) (s.jump (s.reg i))
  | jeqTaken {a : Byte} {i : Fin 8} (he : s.equalBit = true) (ha : a.toNat = i) :
      Effect s (.jeq a) (s.jump (s.reg i))
  | jeqNotTaken {a : Byte} (he : s.equalBit = false) : Effect s (.jeq a) s.fallThrough
  | jneTaken {a : Byte} {i : Fin 8} (he : s.equalBit = false) (ha : a.toNat = i) :
      Effect s (.jne a) (s.jump (s.reg i))
  | jneNotTaken {a : Byte} (he : s.equalBit = true) : Effect s (.jne a) s.fallThrough

/-- The bytes a handler passes to `CheckReg` in this state (R95): none before an AluUnsupported, none on a branch not
taken, and for CALL the byte its operand addresses, after the push. -/
def State.checkedOperands (s : State) : Instr → List Byte
  | .nop | .hlt | .ret => []
  | .ldi a _ | .prn a | .push a | .pop a | .jmp a => [a]
  | .add a b | .sub a b | .mul a b | .cmp a b => [a, b]
  | .mod a b | .shl a b | .shr a b | .xor a b | .or a b => if s.params.extAlu = .implemented then [a, b] else []
  | .not a => if s.params.extAlu = .implemented then [a] else []
  | .jeq a => if s.equalBit then [a] else []
  | .jne a => if s.equalBit then [] else [a]
  | .call a => if s.sp = 0 then []
    else [((s.setReg spIndex (s.sp - 1)).store (s.sp - 1) s.returnAddress).load a]

/-- The first register index above 7 in the order of the checks (R100). -/
def firstBadIndex (l : List Byte) : Option Byte := l.find? (fun x => decide (7 < x.toNat))

theorem firstBadIndex_head {a : Byte} (l : List Byte) (ha : 7 < a.toNat) : firstBadIndex (a :: l) = some a := by
  simp [firstBadIndex, ha]

theorem firstBadIndex_second {a b : Byte} (l : List Byte) (ha : a.toNat ≤ 7) (hb : 7 < b.toNat) :
    firstBadIndex (a :: b :: l) = some b := by
  simp [firstBadIndex, hb, Nat.not_lt.mpr ha]

/-- The faults a handler raises (R95, R97 to R99). -/
inductive Raises (s : State) : Instr → FaultKind → Prop where
  | registerIndex {n : Instr} {x : Byte} (h : firstBadIndex (s.checkedOperands n) = some x) :
      Raises s n (.registerIndex x)
  | pushBounds {a : Byte} (hsp : s.sp = 0) : Raises s (.push a) (.stackBounds 0)
  | callBounds {a : Byte} (hsp : s.sp = 0) : Raises s (.call a) (.stackBounds 0)
  | popBounds {a : Byte} {i : Fin 8} (ha : a.toNat = i) (hsp : (s.setReg i (s.load s.sp)).sp = 255) :
      Raises s (.pop a) (.stackBounds 255)
  | retBounds (hsp : s.sp = 255) : Raises s .ret (.stackBounds 255)
  | divide {a b : Byte} {j : Fin 8} (hm : s.params.extAlu = .implemented) (hb : b.toNat = j) (h0 : s.reg j = 0) :
      Raises s (.mod a b) .divideByZero
  | unsupported {n : Instr} (h : IsExtendedAlu n) (hm : s.params.extAlu = .fault) : Raises s n .aluUnsupported

/-- An outcome is one of the handler's effects or one of its faults, concluded by the loop. -/
def Concludes (s : State) (n : Instr) (o : Host.Outcome State Fault Refusal) : Prop :=
  (∃ t, Effect s n t ∧ o = s.conclude n.mnemonic (.ok t)) ∨ (∃ f, Raises s n f ∧ o = s.conclude n.mnemonic (.error f))

theorem Concludes.ok {s t : State} {n : Instr} (h : Effect s n t) : Concludes s n (s.conclude n.mnemonic (.ok t)) :=
  .inl ⟨t, h, rfl⟩

theorem Concludes.error {s : State} {n : Instr} {f : FaultKind} (h : Raises s n f) :
    Concludes s n (s.conclude n.mnemonic (.error f)) := .inr ⟨f, h, rfl⟩

theorem aluBinary_ok (f : Byte → Byte → Byte) {a b : Byte} (s : State) {i j : Fin 8} (ha : a.toNat = i)
    (hb : b.toNat = j) : aluBinary f a b s = .ok (s.setReg i (f (s.reg i) (s.reg j))) := by
  simp only [aluBinary, checkReg_ok ha, checkReg_ok hb]; rfl

theorem aluBinary_error_first (f : Byte → Byte → Byte) {a b : Byte} (s : State) (ha : 7 < a.toNat) :
    aluBinary f a b s = .error (.registerIndex a) := by
  simp only [aluBinary, checkReg_error ha]; rfl

theorem aluBinary_error_second (f : Byte → Byte → Byte) {a b : Byte} (s : State) (ha : a.toNat ≤ 7)
    (hb : 7 < b.toNat) : aluBinary f a b s = .error (.registerIndex b) := by
  simp only [aluBinary, checkReg_ok (i := ⟨a.toNat, by omega⟩) rfl, checkReg_error hb]; rfl

/-- `aluBinary` writes the result to x[a], or raises for the first index above 7 (R70). -/
theorem aluBinary_cases (f : Byte → Byte → Byte) (a b : Byte) (s : State) :
    (∃ i j : Fin 8, a.toNat = i ∧ b.toNat = j ∧ aluBinary f a b s = .ok (s.setReg i (f (s.reg i) (s.reg j))))
    ∨ (∃ x, firstBadIndex [a, b] = some x ∧ aluBinary f a b s = .error (.registerIndex x)) := by
  by_cases ha : a.toNat < 8
  · by_cases hb : b.toNat < 8
    · exact .inl ⟨⟨_, ha⟩, ⟨_, hb⟩, rfl, rfl, aluBinary_ok f s rfl rfl⟩
    · exact .inr ⟨b, firstBadIndex_second _ (by omega) (by omega), aluBinary_error_second f s (by omega) (by omega)⟩
  · exact .inr ⟨a, firstBadIndex_head _ (by omega), aluBinary_error_first f s (by omega)⟩

theorem BinaryAlu.checkedOperands {n : Instr} {a b : Byte} {f : Byte → Byte → Byte} (h : BinaryAlu n a b f) (s : State) :
    s.checkedOperands n = [a, b] := by cases h <;> rfl

theorem ExtendedBinaryAlu.checkedOperands {n : Instr} {a b : Byte} {f : Byte → Byte → Byte}
    (h : ExtendedBinaryAlu n a b f) {s : State} (hm : s.params.extAlu = .implemented) :
    s.checkedOperands n = [a, b] := by cases h <;> simp [State.checkedOperands, hm]

theorem concludes_binary {n : Instr} {a b : Byte} {f : Byte → Byte → Byte} (h : BinaryAlu n a b f) (s : State) :
    Concludes s n (s.conclude n.mnemonic (aluBinary f a b s)) := by
  obtain ⟨i, j, hi, hj, e⟩ | ⟨x, hx, e⟩ := aluBinary_cases f a b s
  · rw [e]; exact .ok (.binary h hi hj)
  · rw [e]; exact .error (.registerIndex (by rw [h.checkedOperands]; exact hx))

theorem extendedAlu_fault {s : State} (hm : s.params.extAlu = .fault) (r : Except FaultKind State) :
    extendedAlu s r = .error .aluUnsupported := by simp [extendedAlu, hm]

theorem extendedAlu_implemented {s : State} (hm : s.params.extAlu = .implemented) (r : Except FaultKind State) :
    extendedAlu s r = r := by simp [extendedAlu, hm]

theorem ExtAluMode.eq_or (m : ExtAluMode) : m = .implemented ∨ m = .fault := by cases m <;> simp

theorem concludes_extended {n : Instr} {a b : Byte} {f : Byte → Byte → Byte} (h : ExtendedBinaryAlu n a b f)
    (s : State) : Concludes s n (s.conclude n.mnemonic (extendedAlu s (aluBinary f a b s))) := by
  obtain hm | hm := ExtAluMode.eq_or s.params.extAlu
  · rw [extendedAlu_implemented hm]
    obtain ⟨i, j, hi, hj, e⟩ | ⟨x, hx, e⟩ := aluBinary_cases f a b s
    · rw [e]; exact .ok (.extended h hm hi hj)
    · rw [e]; exact .error (.registerIndex (by rw [h.checkedOperands hm]; exact hx))
  · rw [extendedAlu_fault hm]; exact .error (.unsupported (.binary h) hm)

theorem concludes_ldi (a b : Byte) (s : State) : Concludes s (.ldi a b) (execLdi a b s) := by
  unfold execLdi
  obtain ⟨i, hi, e⟩ | ⟨hi, e⟩ := checkReg_cases a
  · rw [e]; exact .ok (.ldi hi)
  · rw [e]; exact .error (.registerIndex (firstBadIndex_head _ hi))

theorem concludes_prn (a : Byte) (s : State) : Concludes s (.prn a) (execPrn a s) := by
  unfold execPrn State.readOperand
  obtain ⟨i, hi, e⟩ | ⟨hi, e⟩ := checkReg_cases a
  · rw [e]; exact .ok (.prn hi)
  · rw [e]; exact .error (.registerIndex (firstBadIndex_head _ hi))

theorem concludes_cmp (a b : Byte) (s : State) : Concludes s (.cmp a b) (execCmp a b s) := by
  unfold execCmp
  obtain ⟨i, hi, ei⟩ | ⟨hi, ei⟩ := checkReg_cases a
  · obtain ⟨j, hj, ej⟩ | ⟨hj, ej⟩ := checkReg_cases b
    · rw [ei, ej]; exact .ok (.cmp hi hj)
    · rw [ei, ej]; exact .error (.registerIndex (firstBadIndex_second _ (by omega) hj))
  · rw [ei]; exact .error (.registerIndex (firstBadIndex_head _ hi))

theorem concludes_mod (a b : Byte) (s : State) : Concludes s (.mod a b) (execMod a b s) := by
  unfold execMod
  obtain hm | hm := ExtAluMode.eq_or s.params.extAlu
  · rw [extendedAlu_implemented hm]
    obtain ⟨i, hi, ei⟩ | ⟨hi, ei⟩ := checkReg_cases a
    · obtain ⟨j, hj, ej⟩ | ⟨hj, ej⟩ := checkReg_cases b
      · rw [ei, ej]
        by_cases h0 : s.reg j = 0
        · have e : (if s.reg j = 0 then (Except.error .divideByZero : Except FaultKind State)
              else pure (s.setReg i (aluMod (s.reg i) (s.reg j)))) = .error .divideByZero := if_pos h0
          exact .inr ⟨_, .divide hm hj h0, congrArg (s.conclude .mod) e⟩
        · have e : (if s.reg j = 0 then (Except.error .divideByZero : Except FaultKind State)
              else pure (s.setReg i (aluMod (s.reg i) (s.reg j)))) = .ok (s.setReg i (aluMod (s.reg i) (s.reg j))) :=
            if_neg h0
          exact .inl ⟨_, .mod hm hi hj h0, congrArg (s.conclude .mod) e⟩
      · rw [ei, ej]; exact .error (.registerIndex (by
          rw [State.checkedOperands, if_pos hm]; exact firstBadIndex_second _ (by omega) hj))
    · rw [ei]; exact .error (.registerIndex (by
        rw [State.checkedOperands, if_pos hm]; exact firstBadIndex_head _ hi))
  · rw [extendedAlu_fault hm]; exact .error (.unsupported (.mod a b) hm)

theorem concludes_not (a : Byte) (s : State) : Concludes s (.not a) (execNot a s) := by
  unfold execNot
  obtain hm | hm := ExtAluMode.eq_or s.params.extAlu
  · rw [extendedAlu_implemented hm]
    obtain ⟨i, hi, e⟩ | ⟨hi, e⟩ := checkReg_cases a
    · rw [e]; exact .ok (.not hm hi)
    · rw [e]; exact .error (.registerIndex (by
        rw [State.checkedOperands, if_pos hm]; exact firstBadIndex_head _ hi))
  · rw [extendedAlu_fault hm]; exact .error (.unsupported (.not a) hm)

theorem concludes_push (a : Byte) (s : State) : Concludes s (.push a) (execPush a s) := by
  unfold execPush
  obtain ⟨i, hi, e⟩ | ⟨hi, e⟩ := checkReg_cases a
  · rw [e]
    by_cases hsp : s.sp = 0
    · rw [State.decrementSp_error hsp]; exact .error (.pushBounds hsp)
    · rw [State.decrementSp_ok hsp]
      refine .inl ⟨_, .push hi hsp, congrArg (s.conclude .push) ?_⟩
      simp only [bind, Except.bind, State.storeAtSp, State.sp_setReg_sp]; rfl
  · rw [e]; exact .error (.registerIndex (firstBadIndex_head _ hi))

theorem concludes_pop (a : Byte) (s : State) : Concludes s (.pop a) (execPop a s) := by
  unfold execPop
  obtain ⟨i, hi, e⟩ | ⟨hi, e⟩ := checkReg_cases a
  · rw [e]
    by_cases hsp : (s.setReg i (s.load s.sp)).sp = 255
    · exact .inr ⟨_, .popBounds hi hsp, congrArg (s.conclude .pop) (State.incrementSp_error hsp)⟩
    · exact .inl ⟨_, .pop hi hsp, congrArg (s.conclude .pop) (State.incrementSp_ok hsp)⟩
  · rw [e]; exact .error (.registerIndex (firstBadIndex_head _ hi))

theorem concludes_call (a : Byte) (s : State) : Concludes s (.call a) (execCall a s) := by
  unfold execCall State.readIndirectOperand State.readOperand State.storeAtSp
  by_cases hsp : s.sp = 0
  · rw [State.decrementSp_error hsp]; exact .error (.callBounds hsp)
  · rw [State.decrementSp_ok hsp]
    obtain ⟨i, hi, e⟩ | ⟨hi, e⟩ :=
      checkReg_cases (((s.setReg spIndex (s.sp - 1)).store (s.sp - 1) s.returnAddress).load a)
    · refine .inl ⟨_, .call hsp hi, congrArg (s.conclude .call) ?_⟩
      simp only [bind, Except.bind, State.sp_setReg_sp, e]; rfl
    · refine .inr ⟨_, .registerIndex (by rw [State.checkedOperands, if_neg hsp]; exact firstBadIndex_head _ hi),
        congrArg (s.conclude .call) ?_⟩
      simp only [bind, Except.bind, State.sp_setReg_sp, e]

theorem concludes_ret (s : State) : Concludes s .ret (execRet s) := by
  unfold execRet
  by_cases hsp : s.sp = 255
  · rw [State.incrementSp_error hsp]; exact .error (.retBounds hsp)
  · rw [State.incrementSp_ok hsp]; exact .ok (.ret hsp)

theorem concludes_jmp (a : Byte) (s : State) : Concludes s (.jmp a) (execJmp a s) := by
  unfold execJmp State.readOperand
  obtain ⟨i, hi, e⟩ | ⟨hi, e⟩ := checkReg_cases a
  · rw [e]; exact .ok (.jmp hi)
  · rw [e]; exact .error (.registerIndex (firstBadIndex_head _ hi))

theorem concludes_jeq (a : Byte) (s : State) : Concludes s (.jeq a) (execJeq a s) := by
  unfold execJeq
  cases he : s.equalBit
  · exact .ok (.jeqNotTaken he)
  · obtain ⟨i, hi, -⟩ | ⟨hi, -⟩ := checkReg_cases a
    · rw [s.branch_taken_ok hi]; exact .ok (.jeqTaken he hi)
    · rw [s.branch_taken_error hi]; exact .error (.registerIndex (by
        rw [State.checkedOperands, he]; exact firstBadIndex_head _ hi))

theorem concludes_jne (a : Byte) (s : State) : Concludes s (.jne a) (execJne a s) := by
  unfold execJne
  cases he : s.equalBit
  · obtain ⟨i, hi, -⟩ | ⟨hi, -⟩ := checkReg_cases a
    · rw [Bool.not_false, s.branch_taken_ok hi]; exact .ok (.jneTaken he hi)
    · rw [Bool.not_false, s.branch_taken_error hi]
      exact .error (.registerIndex (by
        rw [State.checkedOperands, he]; exact firstBadIndex_head _ hi))
  · exact .ok (.jneNotTaken he)

/-- Every instruction takes one of its effects or raises one of its faults. -/
theorem exec_concludes (n : Instr) (s : State) : Concludes s n (exec n s) := by
  cases n with
  | nop => exact .ok .nop
  | hlt => exact .ok .hlt
  | ret => exact concludes_ret s
  | push a => exact concludes_push a s
  | pop a => exact concludes_pop a s
  | prn a => exact concludes_prn a s
  | call a => exact concludes_call a s
  | jmp a => exact concludes_jmp a s
  | jeq a => exact concludes_jeq a s
  | jne a => exact concludes_jne a s
  | not a => exact concludes_not a s
  | ldi a b => exact concludes_ldi a b s
  | add a b => exact concludes_binary (.add a b) s
  | sub a b => exact concludes_binary (.sub a b) s
  | mul a b => exact concludes_binary (.mul a b) s
  | mod a b => exact concludes_mod a b s
  | cmp a b => exact concludes_cmp a b s
  | or a b => exact concludes_extended (.or a b) s
  | xor a b => exact concludes_extended (.xor a b) s
  | shl a b => exact concludes_extended (.shl a b) s
  | shr a b => exact concludes_extended (.shr a b) s

theorem exec_next (n : Instr) (s : State) : ∃ t, exec n s = .next t := by
  obtain ⟨t, -, h⟩ | ⟨f, -, h⟩ := exec_concludes n s <;> rw [h] <;> exact State.conclude_next _ _ _

/-- What every completed handler leaves alone: the run state, the fault record, the parameters. -/
theorem Effect.run_fault_params {n : Instr} {s t : State} (h : Effect s n t) :
    t.run = s.run ∧ t.fault = s.fault ∧ t.params = s.params := by
  cases h <;> simp

/-- If an instruction answers a next state, it is one of its effects followed by the loop's advance and halt, or one of
its faults entered from the state it began in. -/
theorem exec_cases {n : Instr} {s t : State} (h : exec n s = .next t) :
    (∃ u, Effect s n u ∧ t = (u.advance (s.opcode n.mnemonic)).haltAfter n.mnemonic)
    ∨ (∃ f, Raises s n f ∧ t = s.enterFaulted { kind := f, pc := s.pc, opcode := some (s.opcode n.mnemonic) }) := by
  obtain ⟨u, hu, e⟩ | ⟨f, hf, e⟩ := exec_concludes n s
  · rw [e, State.conclude_ok] at h
    cases h
    exact .inl ⟨u, hu, rfl⟩
  · rw [e, State.conclude_error] at h
    cases h
    exact .inr ⟨f, hf, rfl⟩

end Sys2Proof.Machine
end

