-- ==== Sys2Proof/Laws/PerInstr.lean ====
section
/-! SUPPORT. Facts about every instruction as syntax, one lemma per constructor. -/

namespace Sys2Proof.Laws.EncodedLength

/-- The encoding is one opcode byte and as many operand bytes as the mnemonic takes (R43, R53 of 30_encoding.md). -/
def Statement (i : Instr) : Prop := ∀ m : OpcodeMap, (encode m i).length = i.mnemonic.operands + 1

theorem nop : Statement .nop := fun _ => rfl
theorem hlt : Statement .hlt := fun _ => rfl
theorem ret : Statement .ret := fun _ => rfl
theorem push (a : Byte) : Statement (.push a) := fun _ => rfl
theorem pop (a : Byte) : Statement (.pop a) := fun _ => rfl
theorem prn (a : Byte) : Statement (.prn a) := fun _ => rfl
theorem call (a : Byte) : Statement (.call a) := fun _ => rfl
theorem jmp (a : Byte) : Statement (.jmp a) := fun _ => rfl
theorem jeq (a : Byte) : Statement (.jeq a) := fun _ => rfl
theorem jne (a : Byte) : Statement (.jne a) := fun _ => rfl
theorem not (a : Byte) : Statement (.not a) := fun _ => rfl
theorem ldi (a b : Byte) : Statement (.ldi a b) := fun _ => rfl
theorem add (a b : Byte) : Statement (.add a b) := fun _ => rfl
theorem sub (a b : Byte) : Statement (.sub a b) := fun _ => rfl
theorem mul (a b : Byte) : Statement (.mul a b) := fun _ => rfl
theorem mod (a b : Byte) : Statement (.mod a b) := fun _ => rfl
theorem cmp (a b : Byte) : Statement (.cmp a b) := fun _ => rfl
theorem or (a b : Byte) : Statement (.or a b) := fun _ => rfl
theorem xor (a b : Byte) : Statement (.xor a b) := fun _ => rfl
theorem shl (a b : Byte) : Statement (.shl a b) := fun _ => rfl
theorem shr (a b : Byte) : Statement (.shr a b) := fun _ => rfl

end Sys2Proof.Laws.EncodedLength
end

