-- ==== Sys2Proof/Laws/Report.lean ====
section
/-! SUPPORT. Decimal numerals of the report: what they are made of, and that reading one back gives the number. -/

namespace Sys2Proof.Machine

/-- The number a list of decimal digits reads as. -/
def decimalValue (l : List Char) : Nat := l.foldl (fun n c => 10 * n + (c.toNat - '0'.toNat)) 0

theorem digitChar_toNat {d : Nat} (h : d < 10) : (digitChar d).toNat = d + '0'.toNat := by
  interval_cases d <;> rfl

theorem digitChar_isDigit {d : Nat} (h : d < 10) : (digitChar d).isDigit = true := by
  interval_cases d <;> rfl

theorem decimal_isDigit {n : Nat} (h : n < 1000) : ∀ c ∈ decimal n, c.isDigit = true := by
  unfold decimal
  intro c hc
  split at hc
  · simp only [List.mem_singleton] at hc; subst hc; exact digitChar_isDigit (by omega)
  · split at hc <;> simp only [List.mem_cons, List.not_mem_nil, or_false] at hc <;>
      rcases hc with rfl | hc <;> (try rcases hc with rfl | hc) <;> (try subst hc) <;> exact digitChar_isDigit (by omega)

theorem decimal_ne_nil (n : Nat) : decimal n ≠ [] := by unfold decimal; split_ifs <;> simp

theorem decimal_no_leading_zero {n : Nat} (h : n < 1000) (hl : 1 < (decimal n).length) : (decimal n).head? ≠ some '0' := by
  have key : ∀ {d : Nat}, d < 10 → d ≠ 0 → digitChar d ≠ '0' := by
    intro d hd h0 e
    have := congrArg Char.toNat e
    rw [digitChar_toNat hd] at this
    omega
  unfold decimal at hl ⊢
  split_ifs at hl ⊢
  · simp at hl
  · simpa using key (d := n / 10) (by omega) (by omega)
  · simpa using key (d := n / 100) (by omega) (by omega)

theorem decimalValue_decimal {n : Nat} (h : n < 1000) : decimalValue (decimal n) = n := by
  unfold decimal decimalValue
  split
  · simp [digitChar_toNat (d := n) (by omega)]
  · split
    · simp [digitChar_toNat (d := n / 10) (by omega), digitChar_toNat (d := n % 10) (by omega)]; omega
    · simp [digitChar_toNat (d := n / 100) (by omega), digitChar_toNat (d := n / 10 % 10) (by omega),
        digitChar_toNat (d := n % 10) (by omega)]; omega

theorem decimal_injective {m n : Nat} (hm : m < 1000) (hn : n < 1000) (h : decimal m = decimal n) : m = n := by
  rw [← decimalValue_decimal hm, h, decimalValue_decimal hn]

end Sys2Proof.Machine
end

