-- ==== Sys2Proof/Laws/Step.lean ====
section
/-! SUPPORT. What a step can do, said once: enabledness, the fetch, and the inversion lemma `step_cases`. -/

namespace Sys2Proof.Machine

@[simp] theorem State.notEnabled_running {s : State} (h : s.run = .running) : s.notEnabled = none := by
  simp [State.notEnabled, h]

theorem State.notEnabled_eq_none {s : State} : s.notEnabled = none ↔ s.run = .running := by
  unfold State.notEnabled
  cases s.run <;> simp

theorem State.windowFits_iff {s : State} : s.windowFits = true ↔ s.pc + 2 ≤ 255 := decide_eq_true_iff

/-- A fetch succeeds exactly on a window that fits and decodes. -/
theorem State.fetch_eq_ok {s : State} {i : Instr} :
    s.fetch = .ok i ↔ s.pc + 2 ≤ 255 ∧
      decodeWindow s.params.opcodes (s.windowByte 0) (s.windowByte 1) (s.windowByte 2) = .ok i := by
  unfold State.fetch
  by_cases hf : s.windowFits = true
  · rw [if_pos hf]
    cases h : decodeWindow s.params.opcodes (s.windowByte 0) (s.windowByte 1) (s.windowByte 2) <;>
      simp [State.windowFits_iff.mp hf]
  · rw [if_neg hf]
    simp only [reduceCtorEq, false_iff, not_and]
    exact fun h => absurd (State.windowFits_iff.mpr h) hf

/-- A fetch fails on a window that does not fit, or on an opcode byte that is not in the map. -/
theorem State.fetch_eq_error {s : State} {r : FaultRecord} (h : s.fetch = .error r) :
    (255 < s.pc + 2 ∧ r = { kind := .fetchBounds, pc := s.pc, opcode := none })
    ∨ (s.pc + 2 ≤ 255 ∧ (∀ k, s.params.opcodes.byteOf k ≠ s.windowByte 0)
        ∧ r = { kind := .unknownOpcode, pc := s.pc, opcode := some (s.windowByte 0) }) := by
  unfold State.fetch at h
  by_cases hf : s.windowFits = true
  · rw [if_pos hf] at h
    split at h
    · cases h
    · rename_i e he
      exact .inr ⟨State.windowFits_iff.mp hf, (decodeWindow_eq_error.mp he).2, by cases h; rfl⟩
  · rw [if_neg hf] at h
    exact .inl ⟨by have := mt State.windowFits_iff.mpr hf; omega, by cases h; rfl⟩

theorem step_of_fetch_ok {s : State} {i : Instr} (hr : s.run = .running) (hf : s.fetch = .ok i) : step s = exec i s := by
  simp [step, hr, hf]

theorem step_of_fetch_error {s : State} {r : FaultRecord} (hr : s.run = .running) (hf : s.fetch = .error r) :
    step s = .next (s.enterFaulted r) := by
  simp [step, hr, hf]

theorem step_of_not_running {s : State} (hr : s.run ≠ .running) : ∃ f, step s = .fault f := by
  unfold step
  cases h : s.notEnabled with
  | none => exact absurd (State.notEnabled_eq_none.mp h) hr
  | some f => exact ⟨f, rfl⟩

/-- If a step answers a next state, the engine was RUNNING, and the step is a fetch fault or the instruction fetched. -/
theorem step_cases {s t : State} (h : step s = .next t) :
    s.run = .running ∧
      ((∃ r, s.fetch = .error r ∧ t = s.enterFaulted r) ∨ (∃ i, s.fetch = .ok i ∧ exec i s = .next t)) := by
  have hr : s.run = .running := by
    by_contra hr
    obtain ⟨f, hf⟩ := step_of_not_running hr
    rw [hf] at h; cases h
  refine ⟨hr, ?_⟩
  cases hf : s.fetch with
  | error r => rw [step_of_fetch_error hr hf] at h; cases h; exact .inl ⟨r, rfl, rfl⟩
  | ok i => rw [step_of_fetch_ok hr hf] at h; exact .inr ⟨i, rfl, h⟩

/-- The opcode byte that the loop's advance looks at is the byte fetched. -/
theorem State.opcode_of_fetch {s : State} {i : Instr} (h : s.fetch = .ok i) : s.opcode i.mnemonic = s.windowByte 0 :=
  byteOf_mnemonic_of_decodeWindow (State.fetch_eq_ok.mp h).2

theorem State.fetches_of_fetch {s : State} {i : Instr} (hr : s.run = .running) (h : s.fetch = .ok i) : s.Fetches i :=
  ⟨_, _, _, ⟨hr, (State.fetch_eq_ok.mp h).1, rfl, rfl, rfl⟩, (State.fetch_eq_ok.mp h).2⟩

theorem State.fetch_of_fetchesWindow {s : State} {op a b : Byte} (h : s.FetchesWindow op a b) {i : Instr}
    (hd : decodeWindow s.params.opcodes op a b = .ok i) : s.fetch = .ok i := by
  refine State.fetch_eq_ok.mpr ⟨h.fits, ?_⟩
  rw [← h.opcode, ← h.operandA, ← h.operandB] at hd
  exact hd

/-! ### Runs of several steps -/

theorem core_run_zero (s : State) : Sys2Proof.core.run 0 s = .next s := rfl

theorem core_run_succ_next {s t : State} (h : step s = .next t) (k : Nat) :
    Sys2Proof.core.run (k + 1) s = Sys2Proof.core.run k t := by
  simp only [Host.Core.run]
  rw [show Sys2Proof.core.step s = .next t from h]

theorem core_run_succ_fault {s : State} {f : Fault} (h : step s = .fault f) (k : Nat) :
    Sys2Proof.core.run (k + 1) s = .fault f := by
  simp only [Host.Core.run]
  rw [show Sys2Proof.core.step s = .fault f from h]

/-- A step never refuses: every instruction has its meaning. -/
theorem step_not_refused (s : State) (r : Refusal) : step s ≠ .refused r := by
  intro h
  by_cases hr : s.run = .running
  · cases hf : s.fetch with
    | error e => rw [step_of_fetch_error hr hf] at h; cases h
    | ok i =>
      obtain ⟨t, ht⟩ := exec_next i s
      rw [step_of_fetch_ok hr hf, ht] at h; cases h
  · obtain ⟨f, hf⟩ := step_of_not_running hr
    rw [hf] at h; cases h

end Sys2Proof.Machine
end

