-- ==== Sys2Proof/Tests/Slice0.lean ====
section
/-! SUPPORT. Small tests. Expected values come from spec/95_test_vectors.md (vector names in the docstrings) or from the
rules by hand, never from the model. `witness_…` theorems show that the hypotheses of the statements of
Certificates/Slice0/Obligations.lean can be met, clause by clause, at boundary values. -/

namespace Sys2Proof.Tests

open Sys2Proof.Machine

/-! ### Helpers -/

/-- A running machine with these registers, at this pc, with this FL and memory. -/
def machine (regs : Vector Byte 8) (pc : Nat := 0) (fl : Byte := 0) (mem : Memory := []) : State :=
  { State.reset with regs := regs, pc := pc, fl := fl, mem := mem }

/-- R0 = x, R1 = y, SP as at reset. -/
def two (x y : Byte) : Vector Byte 8 := #v[x, y, 0, 0, 0, 0, 0, 0xF4]

/-- SP = x, every other register 7. -/
def stackAt (x : Byte) : Vector Byte 8 := #v[7, 7, 7, 7, 7, 7, 7, x]

/-- The same machine with these bytes laid at its pc. -/
def holding (s : State) (bytes : List Byte) : State := { s with mem := s.mem.writeBytes s.pc bytes }

/-- The same machine under `EXT_ALU_MODE` = fault. -/
def unsupported (s : State) : State := { s with params := { s.params with extAlu := .fault } }

def next? (o : Host.Outcome State Fault Refusal) : Option State :=
  match o with
  | .next t => some t
  | .fault _ => none
  | .refused _ => none

/-- Register i after an outcome. -/
def regAfter (i : Fin 8) (o : Host.Outcome State Fault Refusal) : Option Byte := (next? o).map (fun t => t.regs[i])

def pcAfter (o : Host.Outcome State Fault Refusal) : Option Nat := (next? o).map (fun t => t.pc)

def flAfter (o : Host.Outcome State Fault Refusal) : Option Byte := (next? o).map (fun t => t.fl)

def runAfter (o : Host.Outcome State Fault Refusal) : Option RunState := (next? o).map (fun t => t.run)

def byteAfter (a : Nat) (o : Host.Outcome State Fault Refusal) : Option Byte := (next? o).map (fun t => t.mem.read a)

def outputAfter (o : Host.Outcome State Fault Refusal) : Option (List Byte) := (next? o).map (fun t => t.output)

/-- The fault record after an outcome. -/
def recordAfter (o : Host.Outcome State Fault Refusal) : Option FaultRecord := (next? o).bind (fun t => t.fault)

/-- The fault kind after an outcome. -/
def kindAfter (o : Host.Outcome State Fault Refusal) : Option FaultKind := (recordAfter o).map (fun r => r.kind)

/-! ### WellFormed: each check refuses an ill-formed term -/

theorem test_wf_refuses_register_8_in_one_operand_form : (Instr.push 8).wellFormed = false := by decide
theorem test_wf_refuses_register_8_in_second_operand : (Instr.add 7 8).wellFormed = false := by decide
theorem test_wf_takes_any_immediate_and_address :
    (Instr.ldi 7 255).wellFormed = true ∧ (Instr.call 255).wellFormed = true := by decide
theorem test_wf_refuses_empty_image : imageWellFormed [] = false := by decide
theorem test_wf_refuses_image_of_257 : imageWellFormed (List.replicate 257 0) = false := by
  rw [imageWellFormed, List.length_replicate]; rfl
/-- R50: a map with the wrong LDI byte, one that is not injective, one with a wrong operand count, one with a wrong bit 4. -/
theorem test_map_refuses_each_broken_constraint :
    ({ conventionalTable with ldi := 0x83 } : OpcodeTable).admissible = false ∧
    ({ conventionalTable with add := 0xA1 } : OpcodeTable).admissible = false ∧
    ({ conventionalTable with not := 0xA9 } : OpcodeTable).admissible = false ∧
    ({ conventionalTable with jmp := 0x44 } : OpcodeTable).admissible = false := by decide
/-- R50 admits another value where the source gives none. -/
theorem test_map_takes_another_add_byte :
    ({ conventionalTable with add := 0xAF } : OpcodeTable).admissible = true := by decide

/-! ### Decoding: each row's word written out from R49 (bit 7 first within a byte, the first byte lowest) -/

theorem test_decode_format_F0 :
    decodeTableWord 8 0b00000000 = some .nop ∧ decodeTableWord 8 0b00000001 = some .hlt ∧
    decodeTableWord 8 0b00010001 = some .ret := by decide
theorem test_decode_stack_and_output :
    decodeTableWord 16 0b00000001_01000101 = some (.push 1) ∧ decodeTableWord 16 0b00000010_01000110 = some (.pop 2) ∧
    decodeTableWord 16 0b11111111_01000111 = some (.prn 255) := by decide
theorem test_decode_transfers :
    decodeTableWord 16 0b00001011_01010000 = some (.call 11) ∧ decodeTableWord 16 0b00000011_01010100 = some (.jmp 3) ∧
    decodeTableWord 16 0b00000100_01010101 = some (.jeq 4) ∧ decodeTableWord 16 0b00000101_01010110 = some (.jne 5) := by
  decide
theorem test_decode_not_and_ldi :
    decodeTableWord 16 0b00000010_01101001 = some (.not 2) ∧
    decodeTableWord 24 0b00001000_00000001_10000010 = some (.ldi 1 8) := by decide
theorem test_decode_arithmetic :
    decodeTableWord 24 0b00000010_00000001_10100000 = some (.add 1 2) ∧
    decodeTableWord 24 0b00000010_00000001_10100001 = some (.sub 1 2) ∧
    decodeTableWord 24 0b00000010_00000001_10100010 = some (.mul 1 2) ∧
    decodeTableWord 24 0b00000010_00000001_10100100 = some (.mod 1 2) ∧
    decodeTableWord 24 0b00000010_00000001_10100111 = some (.cmp 1 2) := by decide
theorem test_decode_logic_and_shifts :
    decodeTableWord 24 0b00000010_00000001_10101010 = some (.or 1 2) ∧
    decodeTableWord 24 0b00000010_00000001_10101011 = some (.xor 1 2) ∧
    decodeTableWord 24 0b00000010_00000001_10101100 = some (.shl 1 2) ∧
    decodeTableWord 24 0b00000010_00000001_10101101 = some (.shr 1 2) := by decide
/-- L4, L5: 0x02 and the conventional LD 0x83 spell no instruction. -/
theorem test_decode_refuses_undefined : decodeTableWord 8 0x02 = none ∧ decodeTableWord 24 0x050083 = none := by decide
theorem test_decode_bytes_truncated :
    decodeBytes conventionalMap [0x82, 0x00] = .error .truncated ∧ decodeBytes conventionalMap [] = .error .truncated := by
  exact ⟨rfl, rfl⟩

/-! ### One step per instruction, fetched from memory -/

/-- C6. -/
theorem test_nop : pcAfter (step (holding (machine (two 0 0) 4) [0x00, 0xFF, 0xFF])) = some 5 := by decide
/-- C7. -/
theorem test_hlt :
    (next? (step (holding (machine (two 0 0) 9) [0x01, 0xFF, 0xFF]))).map (fun t => (t.run, t.pc)) = some (.halted, 0x0A) := by
  decide
/-- C1. -/
theorem test_ldi :
    regAfter 3 (step (holding (machine (two 0 0)) [0x82, 0x03, 0xFF])) = some 0xFF ∧
    pcAfter (step (holding (machine (two 0 0)) [0x82, 0x03, 0xFF])) = some 3 := by decide
/-- C4. -/
theorem test_prn :
    outputAfter (step (holding (machine (two 0 0)) [0x47, 0x07])) = some [244] ∧
    pcAfter (step (holding (machine (two 0 0)) [0x47, 0x07])) = some 2 := by decide
/-- A1, A2. -/
theorem test_add :
    regAfter 0 (step (holding (machine (two 200 100)) [0xA0, 0, 1])) = some 44 ∧
    regAfter 0 (step (holding (machine (two 255 1)) [0xA0, 0, 1])) = some 0 := by decide
/-- A4, A6. -/
theorem test_sub :
    regAfter 0 (step (holding (machine (two 5 7)) [0xA1, 0, 1])) = some 254 ∧
    regAfter 0 (step (holding (machine (two 0 1)) [0xA1, 0, 1])) = some 255 := by decide
/-- A7, A9. -/
theorem test_mul :
    regAfter 0 (step (holding (machine (two 8 9)) [0xA2, 0, 1])) = some 72 ∧
    regAfter 0 (step (holding (machine (two 255 255)) [0xA2, 0, 1])) = some 1 := by decide
/-- A13, A14. -/
theorem test_mod :
    regAfter 0 (step (holding (machine (two 10 3)) [0xA4, 0, 1])) = some 1 ∧
    regAfter 0 (step (holding (machine (two 3 10)) [0xA4, 0, 1])) = some 3 := by decide
/-- A17, A19. -/
theorem test_shl :
    regAfter 0 (step (holding (machine (two 0x81 1)) [0xAC, 0, 1])) = some 2 ∧
    regAfter 0 (step (holding (machine (two 1 8)) [0xAC, 0, 1])) = some 0 := by decide
/-- A21, A23. -/
theorem test_shr :
    regAfter 0 (step (holding (machine (two 0x80 7)) [0xAD, 0, 1])) = some 1 ∧
    regAfter 0 (step (holding (machine (two 0x80 200)) [0xAD, 0, 1])) = some 0 := by decide
/-- A24. -/
theorem test_xor :
    regAfter 0 (step (holding (machine (two 0xF0 0x3C)) [0xAB, 0, 1])) = some 0xCC := by decide
/-- A25. -/
theorem test_or :
    regAfter 0 (step (holding (machine (two 0xF0 0x3C)) [0xAA, 0, 1])) = some 0xFC := by decide
/-- A26, at R1. -/
theorem test_not :
    regAfter 1 (step (holding (machine (two 0 0x0F) 0x10) [0x69, 1, 0xFF])) = some 0xF0 ∧
    pcAfter (step (holding (machine (two 0 0x0F) 0x10) [0x69, 1, 0xFF])) = some 0x12 := by decide
/-- A11, A11b. -/
theorem test_cmp :
    flAfter (step (holding (machine (two 3 3) 0 0xFE) [0xA7, 0, 1])) = some 0x01 ∧
    flAfter (step (holding (machine (two 3 4) 0 0xFF) [0xA7, 0, 1])) = some 0x00 := by decide
/-- S1, S5. -/
theorem test_push :
    regAfter 7 (step (holding (machine (two 7 0)) [0x45, 0])) = some 0xF3 ∧
    byteAfter 0xF3 (step (holding (machine (two 7 0)) [0x45, 0])) = some 7 ∧
    byteAfter 0xF3 (step (holding (machine (two 7 0)) [0x45, 7])) = some 0xF3 := by decide
/-- S2, S6. -/
theorem test_pop :
    regAfter 1 (step (holding (machine (stackAt 0xF3) 0 0 [(0xF3, 9)]) [0x46, 1])) = some 9 ∧
    regAfter 7 (step (holding (machine (stackAt 0xF3) 0 0 [(0xF3, 9)]) [0x46, 1])) = some 0xF4 ∧
    regAfter 7 (step (holding (machine (stackAt 0xF3) 0 0 [(0xF3, 0x20)]) [0x46, 7])) = some 0x21 := by decide
/-- T1, T4. -/
theorem test_call :
    (next? (step (holding (machine (two 0 0x0C) 6 0 [(0x0B, 1)]) [0x50, 0x0B]))).map
      (fun t => (t.pc, t.regs[7], t.mem.read 0xF3)) = some (0x0C, 0xF3, 0x08) ∧
    (next? (step (holding (machine (two 0 0) 5) [0x50, 0xF3]))).map
      (fun t => (t.pc, t.regs[7], t.mem.read 0xF3)) = some (0xF3, 0xF3, 0x07) := by decide
/-- T6. -/
theorem test_ret :
    (next? (step (holding (machine (stackAt 0xF3) 0 0 [(0xF3, 8)]) [0x11]))).map (fun t => (t.pc, t.regs[7])) =
      some (8, 0xF4) := by decide
/-- T8. -/
theorem test_jmp : pcAfter (step (holding (machine (two 0 0x0C)) [0x54, 1])) = some 0x0C := by decide
/-- T11, T11b, T11c. -/
theorem test_jeq :
    pcAfter (step (holding (machine (two 0 0x20) 0x14 0x01) [0x55, 1])) = some 0x20 ∧
    pcAfter (step (holding (machine (two 0 0x20) 0x14 0x00) [0x55, 1])) = some 0x16 ∧
    pcAfter (step (holding (machine (two 0 0x20) 0x14 0xFE) [0x55, 1])) = some 0x16 := by decide
/-- T13, T13b, T13c. -/
theorem test_jne :
    pcAfter (step (holding (machine (two 0 0x0C) 0x14 0x00) [0x56, 1])) = some 0x0C ∧
    pcAfter (step (holding (machine (two 0 0x0C) 0x14 0x01) [0x56, 1])) = some 0x16 ∧
    pcAfter (step (holding (machine (two 0 0x0C) 0x14 0x03) [0x56, 1])) = some 0x16 := by decide
/-- L1, L2, L6: the last address an instruction runs at; the window check comes before the opcode test. -/
theorem test_fetch_window :
    runAfter (step (holding (machine (two 0 0) 0xFD) [0x01])) = some .halted ∧
    recordAfter (step (holding (machine (two 0 0) 0xFE) [0x01])) = some { kind := .fetchBounds, pc := 0xFE, opcode := none } ∧
    recordAfter (step (holding (machine (two 0 0) 0xFE) [0x02])) = some { kind := .fetchBounds, pc := 0xFE, opcode := none } := by
  decide
/-- L3: pc advances to 0x100, which no fetch takes. -/
theorem test_pc_reaches_256 :
    pcAfter (step (holding (machine (two 0 0) 0xFD) [0x82, 0, 5])) = some 0x100 ∧
    kindAfter (step (machine (two 0 0) 0x100)) = some .fetchBounds := by decide
/-- R-4. -/
theorem test_parse_image :
    parseImage "# comment\n\n10000010\n00000000\n00001000".toList = .ok [0x82, 0x00, 0x08] := by rfl
/-- R24, W6: the line 8; and a three-digit byte. -/
theorem test_render : renderOutput [8, 244, 0] = [['8'], ['2', '4', '4'], ['0']] := by decide

/-! ### Witnesses: per instruction, one conjunct pair per clause, the hypothesis and what then happens -/

theorem witness_HltHaltsPastItself :
    runAfter (step (machine (two 0 0) 254)) = some .faulted ∧
    runAfter (step (machine (two 0 0) 255)) = some .faulted ∧
    next? (step { machine (two 0 0) with run := .halted }) = none := by decide
theorem witness_LdiLoadsImmediate :
    (7 : Byte).toNat = ((7 : Fin 8) : Nat) ∧
    regAfter 7 (exec (.ldi 7 255) (machine (two 0 0))) = some 255 ∧
    7 < (8 : Byte).toNat ∧
    kindAfter (exec (.ldi 8 1) (machine (two 0 0))) = some (.registerIndex 8) := by decide
theorem witness_PrnEmitsRegister :
    (7 : Byte).toNat = ((7 : Fin 8) : Nat) ∧
    outputAfter (exec (.prn 7) (machine (two 0 0))) = some [244] ∧
    7 < (8 : Byte).toNat ∧
    kindAfter (exec (.prn 8) (machine (two 0 0))) = some (.registerIndex 8) := by decide
theorem witness_AddWritesSumModulo256 :
    (7 : Byte).toNat = ((7 : Fin 8) : Nat) ∧
    kindAfter (exec (.add 7 7) (machine (two 0 0))) = none ∧
    7 < (8 : Byte).toNat ∧
    kindAfter (exec (.add 8 9) (machine (two 0 0))) = some (.registerIndex 8) ∧
    (7 : Byte).toNat ≤ 7 ∧
    kindAfter (exec (.add 7 8) (machine (two 0 0))) = some (.registerIndex 8) := by decide
theorem witness_SubWritesDifferenceModulo256 :
    (7 : Byte).toNat = ((7 : Fin 8) : Nat) ∧
    kindAfter (exec (.sub 7 7) (machine (two 0 0))) = none ∧
    7 < (8 : Byte).toNat ∧
    kindAfter (exec (.sub 8 9) (machine (two 0 0))) = some (.registerIndex 8) ∧
    (7 : Byte).toNat ≤ 7 ∧
    kindAfter (exec (.sub 7 8) (machine (two 0 0))) = some (.registerIndex 8) := by decide
theorem witness_MulWritesLowByteOfProduct :
    (7 : Byte).toNat = ((7 : Fin 8) : Nat) ∧
    kindAfter (exec (.mul 7 7) (machine (two 0 0))) = none ∧
    7 < (8 : Byte).toNat ∧
    kindAfter (exec (.mul 8 9) (machine (two 0 0))) = some (.registerIndex 8) ∧
    (7 : Byte).toNat ≤ 7 ∧
    kindAfter (exec (.mul 7 8) (machine (two 0 0))) = some (.registerIndex 8) := by decide
theorem witness_CmpWritesWholeFlagByte :
    (7 : Byte).toNat = ((7 : Fin 8) : Nat) ∧
    flAfter (exec (.cmp 7 7) (machine (two 0 0))) = some 1 ∧
    (machine (two 0 0)).regs[(0 : Fin 8)] ≠ (machine (two 0 0)).regs[(7 : Fin 8)] ∧
    flAfter (exec (.cmp 0 7) (machine (two 0 0))) = some 0 ∧
    7 < (8 : Byte).toNat ∧
    kindAfter (exec (.cmp 8 9) (machine (two 0 0))) = some (.registerIndex 8) ∧
    (7 : Byte).toNat ≤ 7 ∧
    kindAfter (exec (.cmp 7 8) (machine (two 0 0))) = some (.registerIndex 8) := by decide
theorem witness_ModWritesRemainderOrDivideFaults :
    (machine (two 0 0)).params.extAlu = .implemented ∧
    (machine (two 0 0)).regs[(7 : Fin 8)] ≠ 0 ∧
    regAfter 7 (exec (.mod 7 7) (machine (two 0 0))) = some 0 ∧
    (7 : Byte).toNat ≤ 7 ∧
    (machine (two 0 0)).regs[(0 : Fin 8)] = 0 ∧
    kindAfter (exec (.mod 7 0) (machine (two 0 0))) = some .divideByZero ∧
    7 < (8 : Byte).toNat ∧
    kindAfter (exec (.mod 8 0) (machine (two 0 0))) = some (.registerIndex 8) ∧
    kindAfter (exec (.mod 7 8) (machine (two 0 0))) = some (.registerIndex 8) := by decide
theorem witness_ShlShiftsLeftByWholeByte :
    (7 : Byte).toNat = ((7 : Fin 8) : Nat) ∧
    kindAfter (exec (.shl 7 7) (machine (two 0 0))) = none ∧
    7 < (8 : Byte).toNat ∧
    kindAfter (exec (.shl 8 9) (machine (two 0 0))) = some (.registerIndex 8) ∧
    (7 : Byte).toNat ≤ 7 ∧
    kindAfter (exec (.shl 7 8) (machine (two 0 0))) = some (.registerIndex 8) ∧
    (machine (two 0 0)).params.extAlu = .implemented := by decide
theorem witness_ShrShiftsRightByWholeByte :
    (7 : Byte).toNat = ((7 : Fin 8) : Nat) ∧
    kindAfter (exec (.shr 7 7) (machine (two 0 0))) = none ∧
    7 < (8 : Byte).toNat ∧
    kindAfter (exec (.shr 8 9) (machine (two 0 0))) = some (.registerIndex 8) ∧
    (7 : Byte).toNat ≤ 7 ∧
    kindAfter (exec (.shr 7 8) (machine (two 0 0))) = some (.registerIndex 8) ∧
    (machine (two 0 0)).params.extAlu = .implemented := by decide
theorem witness_XorWritesExclusiveOr :
    (7 : Byte).toNat = ((7 : Fin 8) : Nat) ∧
    kindAfter (exec (.xor 7 7) (machine (two 0 0))) = none ∧
    7 < (8 : Byte).toNat ∧
    kindAfter (exec (.xor 8 9) (machine (two 0 0))) = some (.registerIndex 8) ∧
    (7 : Byte).toNat ≤ 7 ∧
    kindAfter (exec (.xor 7 8) (machine (two 0 0))) = some (.registerIndex 8) ∧
    (machine (two 0 0)).params.extAlu = .implemented := by decide
theorem witness_OrWritesInclusiveOr :
    (7 : Byte).toNat = ((7 : Fin 8) : Nat) ∧
    kindAfter (exec (.or 7 7) (machine (two 0 0))) = none ∧
    7 < (8 : Byte).toNat ∧
    kindAfter (exec (.or 8 9) (machine (two 0 0))) = some (.registerIndex 8) ∧
    (7 : Byte).toNat ≤ 7 ∧
    kindAfter (exec (.or 7 8) (machine (two 0 0))) = some (.registerIndex 8) ∧
    (machine (two 0 0)).params.extAlu = .implemented := by decide
theorem witness_NotWritesComplement :
    (machine (two 0 0)).params.extAlu = .implemented ∧
    (7 : Byte).toNat = ((7 : Fin 8) : Nat) ∧
    regAfter 7 (exec (.not 7) (machine (two 0 0))) = some 0x0B ∧
    7 < (8 : Byte).toNat ∧
    kindAfter (exec (.not 8) (machine (two 0 0))) = some (.registerIndex 8) := by decide
/-- A28, A28b. -/
theorem witness_ExtendedAluFaultsWhenUnsupported :
    (unsupported (machine (two 0 0))).params.extAlu = .fault ∧
    recordAfter (exec (.xor 9 9) (unsupported (machine (two 0 0)))) = some { kind := .aluUnsupported, pc := 0, opcode := some 0xAB } := by decide
/-- S3, S10, S11. -/
theorem witness_PushDecrementsThenStores :
    (7 : Byte).toNat = ((7 : Fin 8) : Nat) ∧
    (machine (stackAt 1)).regs[7] ≠ 0 ∧
    byteAfter 0 (exec (.push 0) (machine (stackAt 1))) = some 7 ∧
    regAfter 7 (exec (.push 7) (machine (stackAt 1))) = some 0 ∧
    7 < (8 : Byte).toNat ∧
    kindAfter (exec (.push 8) (machine (stackAt 0))) = some (.registerIndex 8) ∧
    (7 : Byte).toNat ≤ 7 ∧
    (machine (stackAt 0)).regs[7] = 0 ∧
    kindAfter (exec (.push 7) (machine (stackAt 0))) = some (.stackBounds 0) := by decide
/-- S4, S8. -/
theorem witness_PopLoadsThenIncrements :
    (6 : Fin 8) ≠ 7 ∧
    (machine (stackAt 254) 0 0 [(254, 5)]).regs[7] ≠ 255 ∧
    regAfter 6 (exec (.pop 6) (machine (stackAt 254) 0 0 [(254, 5)])) = some 5 ∧
    regAfter 7 (exec (.pop 6) (machine (stackAt 254) 0 0 [(254, 5)])) = some 255 ∧
    (machine (stackAt 255) 0 0 [(255, 5)]).mem.read 255 ≠ 255 ∧
    regAfter 7 (exec (.pop 7) (machine (stackAt 255) 0 0 [(255, 5)])) = some 6 ∧
    7 < (8 : Byte).toNat ∧
    kindAfter (exec (.pop 8) (machine (stackAt 255) 0 0 [(255, 5)])) = some (.registerIndex 8) ∧
    (6 : Byte).toNat < 7 ∧
    kindAfter (exec (.pop 6) (machine (stackAt 255) 0 0 [(255, 5)])) = some (.stackBounds 255) ∧
    (machine (stackAt 0xF3) 0 0 [(0xF3, 255)]).mem.read 0xF3 = 255 ∧
    kindAfter (exec (.pop 7) (machine (stackAt 0xF3) 0 0 [(0xF3, 255)])) = some (.stackBounds 255) := by decide
/-- T2, T3, T3b, T4, T5; pc 253 is the last a step has. -/
theorem witness_CallPushesThenJumpsIndirect :
    (machine (two 0 0) 253 0 [(0x40, 9)]).mem.wf = true ∧
    (machine (two 0 0) 253 0 [(0x40, 9)]).pc ≤ 253 ∧
    kindAfter (exec (.call 0x40) (machine (two 0 0) 253 0 [(0x40, 9)])) = some (.registerIndex 9) ∧
    byteAfter 0xF3 (exec (.call 0x40) (machine (two 0 0) 253 0 [(0x40, 9)])) = some 0 ∧
    pcAfter (exec (.call 0x80) (machine (two 0 0) 253 0 [(0x80, 7)])) = some 0xF3 ∧
    byteAfter 0xF3 (exec (.call 0x80) (machine (two 0 0) 253 0 [(0x80, 7)])) = some 255 ∧
    pcAfter (exec (.call 0xF3) (machine (two 0 0) 5)) = some 0xF3 ∧
    kindAfter (exec (.call 0x40) (machine (stackAt 0) 253 0 [(0x40, 9)])) = some (.stackBounds 0) := by decide
/-- T7. -/
theorem witness_RetPopsIntoPc :
    (machine (stackAt 254) 0 0 [(254, 5)]).regs[7] ≠ 255 ∧
    pcAfter (exec .ret (machine (stackAt 254) 0 0 [(254, 5)])) = some 5 ∧
    (machine (stackAt 255)).regs[7] = 255 ∧
    kindAfter (exec .ret (machine (stackAt 255))) = some (.stackBounds 255) := by decide
/-- T9. -/
theorem witness_JmpGoesToRegister :
    (7 : Byte).toNat = ((7 : Fin 8) : Nat) ∧
    pcAfter (exec (.jmp 7) (machine (two 0 0))) = some 244 ∧
    7 < (8 : Byte).toNat ∧
    kindAfter (exec (.jmp 8) (machine (two 0 0))) = some (.registerIndex 8) := by decide
/-- T12, T12b. -/
theorem witness_JeqBranchesWhenEqualBitSet :
    (machine (two 0 0) 0x14 0x01).fl.getLsbD 0 = true ∧
    pcAfter (exec (.jeq 7) (machine (two 0 0) 0x14 0x01)) = some 244 ∧
    (machine (two 0 0) 0x14 0xFE).fl.getLsbD 0 = false ∧
    pcAfter (exec (.jeq 9) (machine (two 0 0) 0x14 0xFE)) = some 0x16 ∧
    kindAfter (exec (.jeq 9) (machine (two 0 0) 0x14 0xFE)) = none ∧
    kindAfter (exec (.jeq 8) (machine (two 0 0) 0x14 0x01)) = some (.registerIndex 8) := by decide
theorem witness_JneBranchesWhenEqualBitClear :
    (machine (two 0 0) 0x14 0xFE).fl.getLsbD 0 = false ∧
    pcAfter (exec (.jne 7) (machine (two 0 0) 0x14 0xFE)) = some 244 ∧
    (machine (two 0 0) 0x14 0x01).fl.getLsbD 0 = true ∧
    pcAfter (exec (.jne 9) (machine (two 0 0) 0x14 0x01)) = some 0x16 ∧
    kindAfter (exec (.jne 9) (machine (two 0 0) 0x14 0x01)) = none ∧
    kindAfter (exec (.jne 8) (machine (two 0 0) 0x14 0xFE)) = some (.registerIndex 8) := by decide

/-! ### Witnesses: reset, load, encoding -/

/-- Inputs of a load in which every open byte is `v`. -/
def inputs (v : Byte) : ResetInputs :=
  { initRegs := Vector.replicate 7 v, initFl := v, initMem := Vector.replicate 256 v, params := defaultParams }

def booted (r : Except LoadError State) : Option State :=
  match r with
  | .ok s => some s
  | .error _ => none

def loadError (r : Except LoadError State) : Option LoadError :=
  match r with
  | .ok _ => none
  | .error e => some e

set_option maxRecDepth 20000 in
/-- R-3, with 0xAA for each `?`: the image's byte, the first and the last byte past it, and the open registers. -/
theorem witness_BootStateFollowsResetTable :
    (booted (boot (inputs 0xAA) [0x01])).map (fun s => (s.mem.read 0, s.mem.read 1, s.mem.read 255)) =
      some (0x01, 0xAA, 0xAA) ∧
    (booted (boot (inputs 0xAA) [0x01])).map (fun s => (s.regs[0], s.regs[6], s.regs[7], s.fl)) =
      some (0xAA, 0xAA, 0xF4, 0xAA) := by decide
/-- R-1, R-2 and both ends of the legal range. -/
theorem witness_LoadTakesOneTo256Bytes :
    loadError (boot (inputs 0) []) = some .emptyProgram ∧
    loadError (boot (inputs 0) [0x01]) = none ∧
    loadError (boot (inputs 0) (List.replicate 256 0x01)) = none ∧
    loadError (boot (inputs 0) (List.replicate 257 0x01)) = some .imageTooLong := by
  refine ⟨rfl, rfl, ?_, ?_⟩ <;> simp only [boot, checkImage, List.length_replicate] <;> rfl
theorem witness_ImageTextHoldsOneBytePerLine :
    (∀ c ∈ [' ', ' '], c = ' ') ∧ parseLines [] = .ok [] ∧ parseLines [[' ', ' ']] = .ok [] ∧
    ([['0'], ['1']] : List (List Char)) ≠ [] ∧ (∀ l ∈ ([['0'], ['1']] : List (List Char)), '\n' ∉ l) ∧
    parseLines [['0'], ['1']] = .ok [0, 1] := by
  exact ⟨by simp, rfl, rfl, by simp, by simp, rfl⟩
theorem witness_DecodeOfEncodeIsInstruction :
    encode conventionalMap (.push 255) <+: [0x45, 255, 3] ∧ decodeWindow conventionalMap 0x45 255 3 = .ok (.push 255) := by
  exact ⟨by decide, rfl⟩
theorem witness_DecodedBytesAreTheEncoding :
    decodeBytes conventionalMap [0x82, 0, 8, 0x47] = .ok (.ldi 0 8, [0x47]) := by rfl
theorem witness_UndefinedOpcodesAreThe235 :
    (holding (machine (two 0 0)) [0x10, 1, 2]).FetchesWindow 0x10 1 2 ∧
    (holding (machine (two 0 0)) [0x10, 1, 2]).params.opcodes = conventionalMap ∧
    kindAfter (step (holding (machine (two 0 0)) [0x10, 1, 2])) = some .unknownOpcode := by
  exact ⟨⟨rfl, by decide, rfl, rfl, rfl⟩, rfl, by decide⟩
/-- One state and two others whose memories differ from it in ignored window bytes only. -/
theorem witness_IgnoredOperandBytesHaveNoEffect :
    operandCount 0x45 = 1 ∧ operandCount 0x11 = 0 ∧
    (holding (machine (two 0 0)) [0x45, 1, 2]).FetchesWindow 0x45 1 2 ∧
    (holding (machine (two 0 0)) [0x45, 1, 9]).FetchesWindow 0x45 1 9 ∧
    (holding (machine (two 0 0)) [0x11, 1, 2]).FetchesWindow 0x11 1 2 ∧
    (holding (machine (two 0 0)) [0x11, 8, 9]).FetchesWindow 0x11 8 9 ∧
    holding (machine (two 0 0)) [0x11, 8, 9] =
      { holding (machine (two 0 0)) [0x11, 1, 2] with mem := (holding (machine (two 0 0)) [0x11, 8, 9]).mem } := by
  exact ⟨by decide, by decide, ⟨rfl, by decide, rfl, rfl, rfl⟩, ⟨rfl, by decide, rfl, rfl, rfl⟩,
    ⟨rfl, by decide, rfl, rfl, rfl⟩, ⟨rfl, by decide, rfl, rfl, rfl⟩, rfl⟩

/-- The step clause at a form of each kind: PUSH that stores over its own ignored byte, POP and CALL that read elsewhere,
and a faulting NOT; the ignored byte alone differs, and is not read as data. -/
theorem witness_IgnoredOperandBytesHaveNoEffect_step :
    (holding (machine (stackAt 3)) [0x45, 1, 2]).mem.wf = true ∧
    (holding (machine (stackAt 3)) [0x45, 1, 2]).FetchesWindow 0x45 1 2 ∧
    (holding (machine (stackAt 3)) [0x45, 1, 9]).mem.wf = true ∧
    (holding (machine (stackAt 3)) [0x45, 1, 9]).mem.read 1 = 1 ∧
    byteAfter 2 (step (holding (machine (stackAt 3)) [0x45, 1, 9])) = some 7 ∧
    (holding (machine (stackAt 3)) [0x45, 1, 2]).IgnoresByte 0x45 2 ∧
    ¬ (holding (machine (stackAt 3)) [0x45, 1, 2]).IgnoresByte 0x45 1 ∧
    (machine (stackAt 3)).dataReads (.pop 1) = [3] ∧ (machine (stackAt 3)).dataReads (.call 3) = [3] ∧
    (machine (stackAt 3)).dataReads (.call 2) = [] ∧
    step (holding (machine (two 0 0)) [0x69, 8, 9]) ≠ step (holding (machine (two 0 0)) [0x69, 9, 9]) ∧
    recordAfter (step (holding (machine (two 0 0)) [0x69, 8, 9])) =
      recordAfter (step (holding (machine (two 0 0)) [0x69, 8, 0])) := by
  refine ⟨by decide, ⟨rfl, by decide, rfl, rfl, rfl⟩, by decide, by decide, by decide, ?_, ?_, by decide, by decide,
    by decide, ?_, by decide⟩
  · unfold State.IgnoresByte; decide
  · unfold State.IgnoresByte; decide
  · intro h
    have := congrArg recordAfter h
    revert this; decide

/-! ### Witnesses: the step -/

theorem witness_StepRunsDecodedInstruction :
    (holding (machine (two 0 0) 253) [0x82, 7, 8]).FetchesWindow 0x82 7 8 ∧
    decodeWindow conventionalMap 0x82 7 8 = .ok (.ldi 7 8) := by
  exact ⟨⟨rfl, by decide, rfl, rfl, rfl⟩, rfl⟩
theorem witness_FetchBoundsFaultExactlyPast253 :
    (machine (two 0 0) 254).run = .running ∧ 255 < (machine (two 0 0) 254).pc + 2 ∧
    (machine (two 0 0) 254).fault = none ∧ kindAfter (step (machine (two 0 0) 254)) = some .fetchBounds ∧
    kindAfter (step (machine (two 0 0) 253)) = none := by decide
/-- L4. -/
theorem witness_UnknownOpcodeFaultIsFatal :
    (holding (machine (two 0 0)) [0x02, 1, 2]).FetchesWindow 0x02 1 2 ∧
    (∀ k ∈ Mnemonic.all, conventionalMap.byteOf k ≠ 0x02) ∧
    recordAfter (step (holding (machine (two 0 0)) [0x02, 1, 2])) =
      some { kind := .unknownOpcode, pc := 0, opcode := some 0x02 } := by
  exact ⟨⟨rfl, by decide, rfl, rfl, rfl⟩, by decide, by decide⟩
/-- Two such faults at two opcodes and two addresses, with the messages they leave. -/
theorem witness_UnknownOpcodeFaultIsFatal_messages :
    (holding (machine (two 0 0) 253) [0xFF, 1, 2]).FetchesWindow 0xFF 1 2 ∧
    (∀ k ∈ Mnemonic.all, conventionalMap.byteOf k ≠ 0xFF) ∧
    (next? (step (holding (machine (two 0 0)) [0x02, 1, 2]))).bind faultMessage =
      some "unknown instruction 2 at address 0".toList ∧
    (next? (step (holding (machine (two 0 0) 253) [0xFF, 1, 2]))).bind faultMessage =
      some "unknown instruction 255 at address 253".toList := by
  exact ⟨⟨rfl, by decide, rfl, rfl, rfl⟩, by decide, by rfl, by rfl⟩
/-- C2. -/
theorem witness_FaultsArePreciseAndFinal :
    runAfter (step (holding (machine (two 0 0)) [0x82, 8, 1])) = some .faulted ∧
    recordAfter (step (holding (machine (two 0 0)) [0x82, 8, 1])) =
      some { kind := .registerIndex 8, pc := 0, opcode := some 0x82 } ∧
    recordAfter (step (machine (two 0 0) 256)) = some { kind := .fetchBounds, pc := 256, opcode := none } := by decide
theorem witness_RunHaltsOnlyByHlt :
    runAfter (step (holding (machine (two 0 0)) [0x01])) = some .halted ∧
    runAfter (step (holding (machine (two 0 0)) [0x00])) = some .running := by decide
/-- L8, L9 and a jump. -/
theorem witness_PcAdvancesWithoutWrap :
    setsPC 0x45 = false ∧ pcAfter (step (holding (machine (two 0 0) 0x10) [0x45, 0])) = some 0x12 ∧
    setsPC 0x82 = false ∧ pcAfter (step (holding (machine (two 0 0) 0x10) [0x82, 0, 0])) = some 0x13 ∧
    setsPC 0x54 = true ∧ pcAfter (step (holding (machine (two 255 0)) [0x54, 0])) = some 255 := by decide
/-- A27, A27b, T12b. -/
theorem witness_RegisterIndexFaultOnlyWhenUsed :
    (machine (two 0 0)).mem.wf = true ∧ (machine (two 0 0)).fault = none ∧
    kindAfter (exec (.add 0 9) (machine (two 0 0))) = some (.registerIndex 9) ∧
    kindAfter (exec (.add 9 10) (machine (two 0 0))) = some (.registerIndex 9) ∧
    kindAfter (exec (.jeq 9) (machine (two 0 0) 0x14 0x01)) = some (.registerIndex 9) ∧
    kindAfter (exec (.jne 9) (machine (two 0 0) 0x14 0x00)) = some (.registerIndex 9) ∧
    kindAfter (exec (.call 0x40) (machine (two 0 0) 0x30 0 [(0x40, 9)])) = some (.registerIndex 9) := by decide
theorem witness_AluUnsupportedOnlyInFaultMode :
    (unsupported (holding (machine (two 0 0)) [0xAB, 0, 1])).fault = none ∧
    kindAfter (step (unsupported (holding (machine (two 0 0)) [0xAB, 0, 1]))) = some .aluUnsupported := by decide

theorem witness_NoStepUnlessRunning :
    runAfter (step (holding (machine (two 0 0)) [0x00])) = some .running ∧
    next? (step { machine (two 0 0) with run := .halted }) = none ∧
    next? (step { machine (two 0 0) with run := .faulted }) = none := by decide

/-! ### Witnesses: frames -/

theorem witness_OnlyDestinationRegistersChange :
    regAfter 7 (exec (.ldi 7 1) (machine (two 0 0))) = some 1 ∧ (machine (two 0 0)).regs[7] ≠ 1 ∧
    regAfter 0 (exec (.pop 0) (machine (two 0 0) 0 0 [(0xF4, 1)])) = some 1 ∧
    regAfter 7 (exec (.pop 0) (machine (two 0 0) 0 0 [(0xF4, 1)])) = some 0xF5 := by decide
theorem witness_OnlyPushAndCallStore :
    (machine (two 9 0)).mem.wf = true ∧ (machine (two 9 0)).pushAddress = some 0xF3 ∧
    byteAfter 0xF3 (exec (.push 0) (machine (two 9 0))) = some 9 ∧
    byteAfter 0xF4 (exec (.push 0) (machine (two 9 0))) = some 0 ∧
    (machine (stackAt 0)).pushAddress = none ∧ runAfter (exec (.call 0) (machine (stackAt 0))) = some .faulted := by decide
theorem witness_OnlyCmpWritesAndOnlyBranchesReadFlag :
    flAfter (step (holding (machine (two 3 3)) [0xA7, 0, 1])) = some 1 ∧ (machine (two 3 3)).fl ≠ 1 ∧
    flAfter (exec (.add 0 1) (machine (two 3 3) 0 0xFE)) = some 0xFE ∧
    flAfter (exec (.cmp 0 7) (machine (two 3 3) 0 0xFE)) = some 0 ∧
    flAfter (exec (.cmp 0 8) (machine (two 3 3) 0 0xFE)) = some 0xFE := by decide
theorem witness_OutputOnlyGrowsByPrn :
    outputAfter (step (holding { machine (two 5 0) with output := [1] } [0x47, 0])) = some [1, 5] := by decide
theorem witness_RunKeepsParameters :
    (next? (Sys2Proof.core.run 2 (unsupported (holding (machine (two 0 0)) [0x00, 0x00, 0x00])))).map
      (fun t => t.params.extAlu) = some .fault := by decide

/-! ### Witnesses: memory and stack -/

theorem witness_ReadReturnsLatestWrite :
    Memory.wf [(3, 1), (255, 2)] = true ∧ Memory.write [(3, 1), (255, 2)] 3 0 = [(255, 2)] ∧
    Memory.write [(3, 1), (255, 2)] 4 9 = [(3, 1), (4, 9), (255, 2)] := by decide
/-- The canonical form refuses addresses out of order, a listed default byte, and an address that does not exist. -/
theorem witness_CanonicalMemoriesReadingAlikeAreEqual :
    Memory.wf [(0, 1), (255, 2)] = true ∧ Memory.wf [(3, 1), (2, 2)] = false ∧ Memory.wf [(3, 0)] = false ∧
    Memory.wf [(256, 1)] = false := by decide
/-- S1, S2, S7. -/
theorem witness_PushThenPopRestoresStackPointer :
    (machine (stackAt 1)).mem.wf = true ∧ (machine (stackAt 1)).regs[7] ≠ 0 ∧
    (next? (exec (.push 0) (machine (stackAt 1)))).map (fun t => (regAfter 6 (exec (.pop 6) t), regAfter 7 (exec (.pop 6) t))) =
      some (some 7, some 1) ∧
    (next? (exec (.push 7) (machine (two 0 0)))).map (fun t => regAfter 7 (exec (.pop 7) t)) = some (some 0xF4) := by decide
/-- W3 at the largest pc. -/
theorem witness_CallThenRetReturnsPastCall :
    (machine (two 0 0x0C) 253 0 [(0x0B, 1)]).mem.wf = true ∧ (machine (two 0 0x0C) 253 0 [(0x0B, 1)]).run = .running ∧
    runAfter (exec (.call 0x0B) (machine (two 0 0x0C) 253 0 [(0x0B, 1)])) = some .running ∧
    (next? (exec (.call 0x0B) (machine (two 0 0x0C) 253 0 [(0x0B, 1)]))).map (fun t => pcAfter (exec .ret t)) =
      some (some 255) := by decide
/-- PUSH over the byte about to be fetched; CALL to the byte just pushed. -/
theorem witness_FetchSeesByteJustPushed :
    (machine (stackAt 3)).pushAddress = some 2 ∧ (machine (stackAt 3)).mem.wf = true ∧
    pcAfter (exec (.push 0) (machine (stackAt 3))) = some 2 ∧ runAfter (exec (.push 0) (machine (stackAt 3))) = some .running ∧
    (next? (exec (.push 0) (machine (stackAt 3)))).map (fun t => t.windowByte 0) = some 7 ∧
    (next? (exec (.call 0xF3) (machine (two 0 0) 5))).map (fun t => (t.pc, t.windowByte 0)) = some (0xF3, 7) := by decide

/-! ### Witnesses: headline results -/

theorem witness_StepKeepsInvariant :
    (machine (two 1 2) 256 0 [(0, 1), (255, 2)]).Inv ∧
    runAfter (step (machine (two 1 2) 256 0 [(0, 1), (255, 2)])) = some .faulted := by
  exact ⟨⟨rfl, by decide, by decide, by decide, by decide⟩, by decide⟩
theorem witness_FlagHighBitsAreUnobservable :
    (0xFE : Byte).getLsbD 0 = (machine (two 0 0)).fl.getLsbD 0 ∧
    pcAfter (Sys2Proof.core.run 2 (holding (machine (two 0 0)) [0x56, 7])) = some 245 ∧
    pcAfter (Sys2Proof.core.run 1 (holding (machine (two 0 0)) [0x56, 7])) = some 244 ∧
    pcAfter (Sys2Proof.core.run 1 (holding (machine (two 0 0) 0 0xFE) [0x56, 7])) = some 244 ∧
    next? (Sys2Proof.core.run 1 { machine (two 0 0) with run := .halted }) = none := by decide

/-! ### Loading a table word and running it first after reset -/

theorem test_withFetchWord_runs_first :
    regAfter 0 (step (State.reset.withFetchWord 24 0x080082)) = some 8 ∧
    runAfter (step (State.reset.withFetchWord 8 0x01)) = some .halted ∧
    (State.reset.withFetchWord 24 0x080082).mem = [(0, 0x82), (2, 0x08)] := by decide

end Sys2Proof.Tests
end

section
/-! PROOFS. The parameters of a run (R6 of 00_scope.md): a step keeps them, so a run of any length does. -/

namespace Sys2Proof.Machine

/-! ### Runs of several steps -/

theorem exists_step_of_core_run_succ {k : Nat} {s t : State} (h : Sys2Proof.core.run (k + 1) s = .next t) :
    ∃ u, step s = .next u ∧ Sys2Proof.core.run k u = .next t := by
  cases hs : step s with
  | next u => exact ⟨u, rfl, core_run_succ_next hs k ▸ h⟩
  | fault f => rw [core_run_succ_fault hs k] at h; cases h
  | refused r => exact absurd hs (step_not_refused s r)

/-- An invariant of steps is an invariant of runs: the induction over the number of steps, done once. -/
theorem core_run_induction {P : State → Prop} (hstep : ∀ {s t : State}, step s = .next t → P s → P t) {k : Nat}
    {s t : State} (h : Sys2Proof.core.run k s = .next t) (hs : P s) : P t := by
  induction k generalizing s with
  | zero => rw [core_run_zero] at h; cases h; exact hs
  | succ k ih =>
    obtain ⟨u, hu, hrun⟩ := exists_step_of_core_run_succ h
    exact ih hrun (hstep hu hs)

/-! ### The parameters -/

theorem exec_params {n : Instr} {s t : State} (h : exec n s = .next t) : t.params = s.params := by
  obtain ⟨u, hu, rfl⟩ | ⟨f, -, rfl⟩ := exec_cases h
  · obtain ⟨-, -, hp⟩ := hu.run_fault_params
    rw [State.haltAfter_params, State.advance_params, hp]
  · rw [State.enterFaulted_params]

theorem step_params {s t : State} (h : step s = .next t) : t.params = s.params := by
  obtain ⟨-, ⟨r, -, rfl⟩ | ⟨i, -, hexec⟩⟩ := step_cases h
  · rw [State.enterFaulted_params]
  · exact exec_params hexec

/-- Settles O46: having the parameters of the first state is kept by every step, so by induction over the run. -/
theorem runKeepsParameters : Obligations.RunKeepsParameters := by
  intro k s t h
  exact core_run_induction (P := fun u => u.params = s.params) (fun hstep hu => (step_params hstep).trans hu) h rfl

end Sys2Proof.Machine
end

section
/-! PROOFS. What every step can do to the pc, the memory, FL, the output and the registers (10_state.md): one lemma per
field over the effects of Laws/Exec.lean, one inversion lemma for a step, and the statements that follow. -/

namespace Sys2Proof.Machine

/-! ### What a completed handler does to each field, before the loop's advance -/

theorem Mnemonic.operands_le_two (k : Mnemonic) : k.operands ≤ 2 := by cases k <;> decide

theorem BinaryAlu.transfersControl {n : Instr} {a b : Byte} {f : Byte → Byte → Byte} (h : BinaryAlu n a b f) :
    n.mnemonic.transfersControl = false := by cases h <;> rfl

theorem ExtendedBinaryAlu.transfersControl {n : Instr} {a b : Byte} {f : Byte → Byte → Byte}
    (h : ExtendedBinaryAlu n a b f) : n.mnemonic.transfersControl = false := by cases h <;> rfl

/-- A handler whose opcode has bit 4 clear leaves pc to the loop (R62). -/
theorem Effect.pc_eq {s u : State} {n : Instr} (h : Effect s n u) (hk : n.mnemonic.transfersControl = false) :
    u.pc = s.pc := by
  cases h with
  | call | ret | jmp | jeqTaken | jeqNotTaken | jneTaken | jneNotTaken => cases hk
  | _ => rfl

/-- A control transfer sets pc to a byte, or falls through, which is a byte too when the window of `s` fits (R89, R91). -/
theorem Effect.pc_le_of_transfer {s u : State} {n : Instr} (h : Effect s n u)
    (hk : n.mnemonic.transfersControl = true) (hpc : s.pc + 2 ≤ 255) : u.pc ≤ 255 := by
  cases h with
  | call | ret | jmp | jeqTaken | jneTaken => exact Nat.le_of_lt_succ (BitVec.isLt _)
  | jeqNotTaken | jneNotTaken => exact hpc
  | binary h => rw [h.transfersControl] at hk; cases hk
  | extended h => rw [h.transfersControl] at hk; cases hk
  | _ => cases hk

theorem Effect.mem_cases {s u : State} {n : Instr} (h : Effect s n u) :
    u.mem = s.mem ∨ ∃ v, u.mem = s.mem.write (s.sp - 1).toNat v := by
  cases h with
  | push | call => exact .inr ⟨_, rfl⟩
  | _ => exact .inl rfl

theorem Effect.fl_cases {s u : State} {n : Instr} (h : Effect s n u) : u.fl = s.fl ∨ ∃ a b, n = .cmp a b := by
  cases h with
  | cmp => exact .inr ⟨_, _, rfl⟩
  | _ => exact .inl rfl

theorem Effect.output_cases {s u : State} {n : Instr} (h : Effect s n u) :
    u.output = s.output ∨ ∃ (a : Byte) (i : Fin 8), n = .prn a ∧ a.toNat = i ∧ u.output = s.output ++ [s.reg i] := by
  cases h with
  | prn ha => exact .inr ⟨_, _, rfl, ha, rfl⟩
  | _ => exact .inl rfl

theorem State.eq_of_setReg_changes {s : State} {i r : Fin 8} {v : Byte} (h : (s.setReg i v).regs[r] ≠ s.regs[r]) :
    i = r := by
  by_contra hir
  exact h ((s.reg_setReg i r v).trans (if_neg hir))

/-- No handler raises a FetchBoundsFault. -/
theorem Raises.ne_fetchBounds {s : State} {n : Instr} {f : FaultKind} (h : Raises s n f) : f ≠ .fetchBounds := by
  cases h <;> exact FaultKind.noConfusion

/-! ### A step, said once -/

/-- `t` is `s` entered into FAULTED with a record that names the pc, and the opcode exactly when it was fetched (R92). -/
def State.FaultsTo (s t : State) : Prop :=
  ∃ r : FaultRecord, t = s.enterFaulted r ∧ r.pc = s.pc ∧ (r.opcode = none ↔ r.kind = .fetchBounds)

/-- `t` is what the instruction fetched from `s` leaves when its handler completes, with the loop's advance and halt. -/
structure State.CompletesTo (s : State) (n : Instr) (t : State) : Prop where
  fetched : s.fetch = .ok n
  effect : ∃ u, Effect s n u ∧ t = (u.advance (s.opcode n.mnemonic)).haltAfter n.mnemonic

/-- A step faults, or completes the instruction fetched. -/
theorem step_faults_or_completes {s t : State} (h : step s = .next t) :
    s.FaultsTo t ∨ ∃ n, s.CompletesTo n t := by
  obtain ⟨-, ⟨r, hr, rfl⟩ | ⟨n, hn, hexec⟩⟩ := step_cases h
  · refine .inl ⟨r, rfl, ?_⟩
    obtain ⟨-, rfl⟩ | ⟨-, -, rfl⟩ := State.fetch_eq_error hr <;> simp
  · obtain ⟨u, hu, rfl⟩ | ⟨f, hf, rfl⟩ := exec_cases hexec
    · exact .inr ⟨n, hn, u, hu, rfl⟩
    · exact .inl ⟨_, rfl, rfl, by simp [hf.ne_fetchBounds]⟩

/-- The pc after an instruction that completes: the loop's advance if opcode bit 4 is 0, a byte if it is 1 (R62). -/
theorem State.CompletesTo.pc {s t : State} {n : Instr} (h : s.CompletesTo n t) :
    (n.mnemonic.transfersControl = false → t.pc = s.pc + n.mnemonic.operands + 1) ∧
    (n.mnemonic.transfersControl = true → t.pc ≤ 255) := by
  obtain ⟨hfetch, u, hu, rfl⟩ := h
  have hpc : ((u.advance (s.opcode n.mnemonic)).haltAfter n.mnemonic).pc =
      if n.mnemonic.transfersControl then u.pc else u.pc + n.mnemonic.operands + 1 := by
    simp [State.opcode]
  rw [hpc]
  constructor
  · intro hk
    simp [hk, hu.pc_eq hk]
  · intro hk
    simpa [hk] using hu.pc_le_of_transfer hk (State.fetch_eq_ok.mp hfetch).1

/-! ### The invariant -/

theorem State.FaultsTo.inv {s t : State} (h : s.FaultsTo t) (hs : s.Inv) : t.Inv := by
  obtain ⟨r, rfl, hpc, hop⟩ := h
  exact {
    memory_canonical := hs.memory_canonical
    pc_bounded := hs.pc_bounded
    record_iff_faulted := by simp
    record_pc := by simp [hpc]
    record_opcode := by simp [hop] }

theorem State.CompletesTo.pc_le {s t : State} {n : Instr} (h : s.CompletesTo n t) : t.pc ≤ 256 := by
  have hfits : s.pc + 2 ≤ 255 := (State.fetch_eq_ok.mp h.fetched).1
  have hops := Mnemonic.operands_le_two n.mnemonic
  obtain ⟨hseq, htransfer⟩ := h.pc
  cases hk : n.mnemonic.transfersControl with
  | false => have := hseq hk; omega
  | true => have := htransfer hk; omega

theorem State.CompletesTo.memory_canonical {s t : State} {n : Instr} (h : s.CompletesTo n t) (hs : s.mem.wf = true) :
    t.mem.wf = true := by
  obtain ⟨-, u, hu, rfl⟩ := h
  rw [State.haltAfter_mem, State.advance_mem]
  obtain hmem | ⟨v, hmem⟩ := hu.mem_cases
  · rw [hmem, hs]
  · rw [hmem]
    exact Memory.wf_write hs (Nat.le_of_lt_succ (BitVec.isLt _)) v

/-- The engine was RUNNING, so the record was empty; it stays empty, and the run state is RUNNING or HALTED (R23, R63). -/
theorem State.CompletesTo.not_faulted {s t : State} {n : Instr} (h : s.CompletesTo n t) (hr : s.run = .running) :
    t.fault = s.fault ∧ t.run ≠ .faulted := by
  obtain ⟨-, u, hu, rfl⟩ := h
  obtain ⟨hrun, hfault, -⟩ := hu.run_fault_params
  refine ⟨by simp [hfault], ?_⟩
  rw [State.haltAfter_run, State.advance_run, hrun, hr]
  split <;> exact RunState.noConfusion

theorem State.CompletesTo.inv {s t : State} {n : Instr} (h : s.CompletesTo n t) (hr : s.run = .running) (hs : s.Inv) :
    t.Inv := by
  obtain ⟨hfault, hrun⟩ := h.not_faulted hr
  have hempty : t.fault = none := by
    have hrec := hs.record_iff_faulted
    rw [hr] at hrec
    simpa [hfault] using hrec
  exact {
    memory_canonical := h.memory_canonical hs.memory_canonical
    pc_bounded := h.pc_le
    record_iff_faulted := by simp [hempty, hrun]
    record_pc := by simp [hempty]
    record_opcode := by simp [hempty] }

/-- Settles O52: a fault writes a record that names the pc and leaves the rest, and an instruction that completes leaves
the record empty, pc at most 256, and memory in canonical form. -/
theorem stepKeepsInvariant : Obligations.StepKeepsInvariant := by
  intro s t hs h
  obtain hf | ⟨n, hc⟩ := step_faults_or_completes h
  · exact hf.inv hs
  · exact hc.inv (step_cases h).1 hs

/-- Settles O24: the memory of reset lists nothing, its pc is 0, and it is RUNNING with an empty record. -/
theorem resetMeetsInvariant : Obligations.ResetMeetsInvariant := by
  refine ⟨?_, rfl, rfl⟩
  exact {
    memory_canonical := Memory.wf_nil
    pc_bounded := Nat.zero_le _
    record_iff_faulted := by decide
    record_pc := fun _ h => nomatch h
    record_opcode := fun _ h => nomatch h }

/-! ### The pc, the output and the registers -/

/-- Settles O39: a step that does not fault completes an instruction, and the bits of its opcode byte are the operand
count and the control-transfer mark of its mnemonic (R50). -/
theorem pcAdvancesWithoutWrap : Obligations.PcAdvancesWithoutWrap := by
  intro s t h hrun
  obtain ⟨r, rfl, -, -⟩ | ⟨n, hc⟩ := step_faults_or_completes h
  · exact absurd rfl hrun
  · have hop : s.mem.read s.pc = s.params.opcodes.byteOf n.mnemonic := (State.opcode_of_fetch hc.fetched).symm
    rw [hop, setsPC_byteOf, operandCount_byteOf]
    exact hc.pc

/-- Settles O45: a fault leaves the output, and of the effects only PRN's appends to it. -/
theorem outputOnlyGrowsByPrn : Obligations.OutputOnlyGrowsByPrn := by
  intro s t h
  obtain ⟨r, rfl, -, -⟩ | ⟨n, hfetch, u, hu, rfl⟩ := step_faults_or_completes h
  · exact .inl rfl
  · rw [State.haltAfter_output, State.advance_output]
    obtain hout | ⟨a, i, rfl, ha, hout⟩ := hu.output_cases
    · exact .inl hout
    · exact .inr ⟨a, i, State.fetches_of_fetch (step_cases h).1 hfetch, ha, hout⟩

/-- Settles O42: a fault changes no register, and each effect writes its destination, R7, or no register. -/
theorem onlyDestinationRegistersChange : Obligations.OnlyDestinationRegistersChange := by
  intro n s t r h hne
  obtain ⟨u, hu, rfl⟩ | ⟨f, -, rfl⟩ := exec_cases h
  · rw [State.haltAfter_regs, State.advance_regs] at hne
    cases hu with
    | ldi ha | mod _ ha _ _ | not _ ha => exact State.eq_of_setReg_changes hne ▸ ha
    | binary hn ha _ => cases hn <;> exact State.eq_of_setReg_changes hne ▸ ha
    | extended hn _ ha _ => cases hn <;> exact State.eq_of_setReg_changes hne ▸ ha
    | push | call | ret => exact (State.eq_of_setReg_changes hne).symm
    | @pop a i ha _ =>
      by_cases hi : (s.setReg i (s.load s.sp)).regs[r] = s.regs[r]
      · rw [← hi] at hne
        exact .inr (State.eq_of_setReg_changes hne).symm
      · exact .inl (State.eq_of_setReg_changes hi ▸ ha)
    | nop | hlt | prn | cmp | jmp | jeqTaken | jeqNotTaken | jneTaken | jneNotTaken => exact hne rfl
  · exact absurd rfl hne

end Sys2Proof.Machine
end

section
/-! PROOFS. Who writes and who reads FL (R19 to R21 of 10_state.md): every handler but CMP's commutes with setting FL,
as long as a branch finds the same bit 0; hence FL bits 7:1 are unobservable over any number of steps. -/

namespace Sys2Proof.Machine

/-! ### The shared operations commute with setting FL -/

theorem State.decrementSp_setFl (s : State) (f : Byte) :
    (s.setFl f).decrementSp = (fun u => u.setFl f) <$> s.decrementSp := by
  by_cases h : s.sp = 0
  · rw [State.decrementSp_error h, State.decrementSp_error (s := s.setFl f) h]; rfl
  · rw [State.decrementSp_ok h, State.decrementSp_ok (s := s.setFl f) h]; rfl

theorem State.incrementSp_setFl (s : State) (f : Byte) :
    (s.setFl f).incrementSp = (fun u => u.setFl f) <$> s.incrementSp := by
  by_cases h : s.sp = 255
  · rw [State.incrementSp_error h, State.incrementSp_error (s := s.setFl f) h]; rfl
  · rw [State.incrementSp_ok h, State.incrementSp_ok (s := s.setFl f) h]; rfl

theorem State.branch_setFl (s : State) (f : Byte) (taken : Bool) (a : Byte) :
    (s.setFl f).branch taken a = (fun u => u.setFl f) <$> s.branch taken a := by
  cases taken with
  | false => rfl
  | true =>
    obtain ⟨i, hi, -⟩ | ⟨hi, -⟩ := checkReg_cases a
    · rw [s.branch_taken_ok hi, (s.setFl f).branch_taken_ok hi]; rfl
    · rw [s.branch_taken_error hi, (s.setFl f).branch_taken_error hi]; rfl

theorem aluBinary_setFl (g : Byte → Byte → Byte) (a b : Byte) (s : State) (f : Byte) :
    aluBinary g a b (s.setFl f) = (fun u => u.setFl f) <$> aluBinary g a b s := by
  simp only [aluBinary, map_bind, map_pure]; rfl

theorem extendedAlu_setFl {s : State} {f : Byte} {r r' : Except FaultKind State}
    (hr : r' = (fun u => u.setFl f) <$> r) :
    extendedAlu (s.setFl f) r' = (fun u => u.setFl f) <$> extendedAlu s r := by
  obtain hm | hm := ExtAluMode.eq_or s.params.extAlu
  · rw [extendedAlu_implemented hm, extendedAlu_implemented (s := s.setFl f) hm, hr]
  · rw [extendedAlu_fault hm, extendedAlu_fault (s := s.setFl f) hm]; rfl

/-- A handler that answers the same from `s.setFl f` as from `s`, FL apart, ends its step alike, FL apart. -/
theorem State.conclude_setFl {s t : State} {f : Byte} {k : Mnemonic} {r r' : Except FaultKind State}
    (hr : r' = (fun u => u.setFl f) <$> r) (h : s.conclude k r = .next t) :
    (s.setFl f).conclude k r' = .next (t.setFl f) := by
  subst hr
  cases r with
  | error e => cases h; rfl
  | ok u =>
    cases h
    rw [← State.haltAfter_setFl, ← State.advance_setFl]; rfl

/-! ### The instructions -/

/-- Every instruction but CMP does the same whatever FL holds, as long as a branch finds the same bit 0 (R20). -/
theorem exec_setFl {n : Instr} {s t : State} {f : Byte} (hcmp : ∀ a b, n ≠ .cmp a b)
    (hbranch : (∃ a, n = .jeq a ∨ n = .jne a) → f.getLsbD 0 = s.fl.getLsbD 0) (h : exec n s = .next t) :
    exec n (s.setFl f) = .next (t.setFl f) := by
  cases n with
  | nop => exact State.conclude_setFl (k := .nop) (r := .ok s) rfl h
  | hlt => exact State.conclude_setFl (k := .hlt) (r := .ok s) rfl h
  | ldi a b | prn a | jmp a =>
    refine State.conclude_setFl ?_ h
    simp only [map_bind, map_pure]; rfl
  | push a | call a =>
    refine State.conclude_setFl ?_ h
    simp only [State.decrementSp_setFl, bind_map_left, map_bind, map_pure]; rfl
  | pop a =>
    refine State.conclude_setFl ?_ h
    simp only [map_bind, ← State.incrementSp_setFl]; rfl
  | ret =>
    refine State.conclude_setFl ?_ h
    simp only [State.incrementSp_setFl, bind_map_left, map_bind, map_pure]; rfl
  | jeq a =>
    have hbit : (s.setFl f).equalBit = s.equalBit := hbranch ⟨a, .inl rfl⟩
    exact State.conclude_setFl (hbit ▸ s.branch_setFl f _ a) h
  | jne a =>
    have hbit : (s.setFl f).equalBit = s.equalBit := hbranch ⟨a, .inr rfl⟩
    exact State.conclude_setFl (hbit ▸ s.branch_setFl f _ a) h
  | not a =>
    refine State.conclude_setFl (extendedAlu_setFl ?_) h
    simp only [map_bind, map_pure]; rfl
  | mod a b =>
    refine State.conclude_setFl (extendedAlu_setFl ?_) h
    simp only [map_bind, apply_ite, map_pure]; rfl
  | add a b | sub a b | mul a b => exact State.conclude_setFl (aluBinary_setFl _ a b s f) h
  | or a b | xor a b | shl a b | shr a b =>
    exact State.conclude_setFl (extendedAlu_setFl (aluBinary_setFl _ a b s f)) h
  | cmp a b => exact absurd rfl (hcmp a b)

/-- CMP of two registers writes FL whole and advances pc by 3 (R74). -/
theorem exec_cmp_ok (s : State) {a b : Byte} {i j : Fin 8} (ha : a.toNat = i) (hb : b.toNat = j) :
    exec (.cmp a b) s = .next { s with fl := compareFlag (s.reg i) (s.reg j), pc := s.pc + 3 } := by
  simp only [exec, execCmp, checkReg_ok ha, checkReg_ok hb]
  exact State.conclude_sequential s _ rfl Mnemonic.noConfusion

/-- CMP with an index above 7 faults, on the same index whatever the state (R95). -/
theorem exec_cmp_error {a b : Byte} (h : ¬(a.toNat ≤ 7 ∧ b.toNat ≤ 7)) :
    ∃ x, ∀ s, exec (.cmp a b) s = .next (s.faultedBy .cmp (.registerIndex x)) := by
  obtain ⟨i, hi, ei⟩ | ⟨-, ei⟩ := checkReg_cases a
  · exact ⟨b, fun s => by simp only [exec, execCmp, ei, checkReg_error (a := b) (by omega)]; rfl⟩
  · exact ⟨a, fun s => by simp only [exec, execCmp, ei]; rfl⟩

/-- The FL that CMP leaves does not depend on the FL before it, unless it faults. -/
theorem exec_cmp_setFl {s t : State} {a b : Byte} (f : Byte) (h : exec (.cmp a b) s = .next t) :
    exec (.cmp a b) (s.setFl f) = .next (t.setFl (if a.toNat ≤ 7 ∧ b.toNat ≤ 7 then t.fl else f)) := by
  by_cases hab : a.toNat ≤ 7 ∧ b.toNat ≤ 7
  · have ha : a.toNat = (⟨a.toNat, by omega⟩ : Fin 8) := rfl
    have hb : b.toNat = (⟨b.toNat, by omega⟩ : Fin 8) := rfl
    rw [exec_cmp_ok s ha hb] at h
    cases h
    rw [if_pos hab, exec_cmp_ok (s.setFl f) ha hb]; rfl
  · obtain ⟨x, hx⟩ := exec_cmp_error hab
    rw [hx] at h
    cases h
    rw [if_neg hab, hx]; rfl

/-- Only CMP changes FL (R20). -/
theorem exec_fl_cases {n : Instr} {s t : State} (h : exec n s = .next t) : t.fl = s.fl ∨ ∃ a b, n = .cmp a b := by
  obtain ⟨u, hu, rfl⟩ | ⟨f, -, rfl⟩ := exec_cases h
  · simpa using hu.fl_cases
  · exact .inl rfl

/-- Settles O44: the effects show that only CMP changes FL, and handlers but the branches' commute with setting it. -/
theorem onlyCmpWritesAndOnlyBranchesReadFlag : Obligations.OnlyCmpWritesAndOnlyBranchesReadFlag := by
  refine ⟨?_, ?_, fun s t a b f h => exec_cmp_setFl f h⟩
  · intro s t h hne
    obtain ⟨hr, ⟨r, -, rfl⟩ | ⟨n, hfetch, hexec⟩⟩ := step_cases h
    · exact absurd rfl hne
    · obtain hfl | ⟨a, b, rfl⟩ := exec_fl_cases hexec
      · exact absurd hfl hne
      · exact ⟨a, b, State.fetches_of_fetch hr hfetch⟩
  · intro n s t f hbranch hcmp h
    refine exec_setFl hcmp ?_ h
    rintro ⟨a, hn⟩
    obtain ⟨hjeq, hjne⟩ := hbranch a
    exact absurd hn (not_or.mpr ⟨hjeq, hjne⟩)

/-! ### FL bits 7:1 over steps and runs -/

/-- From states alike but for FL bits 7:1, an instruction answers states alike but for FL bits 7:1. -/
theorem exec_flagHighBits {n : Instr} {s t : State} {f : Byte} (hf : f.getLsbD 0 = s.fl.getLsbD 0)
    (h : exec n s = .next t) :
    ∃ g : Byte, g.getLsbD 0 = t.fl.getLsbD 0 ∧ exec n (s.setFl f) = .next (t.setFl g) := by
  by_cases hn : ∃ a b, n = .cmp a b
  · obtain ⟨a, b, rfl⟩ := hn
    refine ⟨_, ?_, exec_cmp_setFl f h⟩
    split
    · rfl
    · rename_i hab
      obtain ⟨x, hx⟩ := exec_cmp_error hab
      rw [hx] at h
      cases h
      exact hf
  · obtain hfl | hcmp := exec_fl_cases h
    · exact ⟨f, hf.trans (congrArg (·.getLsbD 0) hfl.symm),
        exec_setFl (fun a b e => hn ⟨a, b, e⟩) (fun _ => hf) h⟩
    · exact absurd hcmp hn

theorem step_flagHighBits {s t : State} {f : Byte} (hf : f.getLsbD 0 = s.fl.getLsbD 0) (h : step s = .next t) :
    ∃ g : Byte, g.getLsbD 0 = t.fl.getLsbD 0 ∧ step (s.setFl f) = .next (t.setFl g) := by
  obtain ⟨hr, ⟨r, hfetch, rfl⟩ | ⟨n, hfetch, hexec⟩⟩ := step_cases h
  · exact ⟨f, hf, step_of_fetch_error (s := s.setFl f) hr hfetch⟩
  · obtain ⟨g, hg, hexec'⟩ := exec_flagHighBits hf hexec
    exact ⟨g, hg, (step_of_fetch_ok (s := s.setFl f) hr hfetch).trans hexec'⟩

/-- A step stops only where no step is enabled (R57). -/
theorem notEnabled_of_step_fault {s : State} {r : Fault} (h : step s = .fault r) : s.notEnabled = some r := by
  unfold step at h
  split at h
  · rename_i hs
    cases h
    exact hs
  · split at h
    · cases h
    · rename_i n _
      obtain ⟨t, ht⟩ := exec_next n s
      rw [ht] at h
      cases h

theorem step_of_notEnabled {s : State} {r : Fault} (h : s.notEnabled = some r) : step s = .fault r := by
  simp [step, h]

/-- Runs that start alike but for FL bits 7:1 stay so and stop alike, by induction on the number of steps. -/
theorem core_run_flagHighBits (k : Nat) {s : State} {f : Byte} (hf : f.getLsbD 0 = s.fl.getLsbD 0) :
    (∀ t : State, Sys2Proof.core.run k s = .next t →
      ∃ g : Byte, g.getLsbD 0 = t.fl.getLsbD 0 ∧ Sys2Proof.core.run k (s.setFl f) = .next (t.setFl g)) ∧
    (∀ r : Fault, Sys2Proof.core.run k s = .fault r → Sys2Proof.core.run k (s.setFl f) = .fault r) := by
  induction k generalizing s f with
  | zero =>
    refine ⟨fun t h => ?_, fun r h => nomatch h⟩
    cases h
    exact ⟨f, hf, rfl⟩
  | succ k ih =>
    cases hs : step s with
    | next u =>
      obtain ⟨g, hg, hs'⟩ := step_flagHighBits hf hs
      rw [core_run_succ_next hs, core_run_succ_next hs']
      exact ih hg
    | fault r =>
      have hs' : step (s.setFl f) = .fault r :=
        step_of_notEnabled (s := s.setFl f) (notEnabled_of_step_fault (s := s) hs)
      rw [core_run_succ_fault hs, core_run_succ_fault hs']
      exact ⟨fun _ h => (nomatch h), fun _ h => h⟩
    | refused r => exact absurd hs (step_not_refused s r)

/-- Settles O53: each step keeps the two states alike but for FL bits 7:1, and whether a step is enabled does not depend
on FL. -/
theorem flagHighBitsAreUnobservable : Obligations.FlagHighBitsAreUnobservable :=
  fun k _ _ hf => core_run_flagHighBits k hf

end Sys2Proof.Machine
end

section
/-! PROOFS. Memory (20_memory.md): a read after a write, memories in canonical form that read alike, and what PUSH and
CALL, alone of all instructions, store. -/

namespace Sys2Proof.Machine

/-! ### Reads after a write, at byte addresses -/

theorem Memory.read_write_of_ne {m : Memory} (hm : m.wf = true) {a x : Nat} (hx : x ≠ a) (v : Byte) :
    (m.write a v).read x = m.read x :=
  (Memory.read_write_from hm a x v).trans (if_neg hx.symm)

theorem Memory.read_write_self {m : Memory} (hm : m.wf = true) (a : Nat) (v : Byte) : (m.write a v).read a = v :=
  (Memory.read_write_from hm a a v).trans (if_pos rfl)

/-- Settles O47: distinct bytes are distinct addresses, and every byte is an address of the space. -/
theorem readReturnsLatestWrite : Obligations.ReadReturnsLatestWrite := by
  intro m a b v hm
  refine ⟨Memory.wf_write hm (Nat.le_of_lt_succ a.isLt) v, ?_⟩
  by_cases hab : a = b
  · rw [if_pos hab, hab, Memory.read_write_self hm]
  · have hne : b.toNat ≠ a.toNat := fun h => hab (BitVec.eq_of_toNat_eq h.symm)
    rw [if_neg hab, Memory.read_write_of_ne hm hne]

/-! ### The canonical form -/

theorem Memory.wfFrom_cons {lo k : Nat} {v : Byte} {rest : Memory} :
    Memory.wfFrom lo ((k, v) :: rest) = true ↔
      lo ≤ k ∧ k ≤ 255 ∧ v ≠ Config.unlistedByte ∧ Memory.wfFrom (k + 1) rest = true := by
  simp [Memory.wfFrom, and_assoc]

/-- The first listed address of a memory tells it from every memory that lists only higher ones. -/
theorem Memory.exists_read_ne {lo k : Nat} {v : Byte} {rest n : Memory}
    (hm : Memory.wfFrom lo ((k, v) :: rest) = true) (hn : Memory.wfFrom (k + 1) n = true) :
    ∃ a ≤ 255, Memory.read ((k, v) :: rest) a ≠ n.read a := by
  obtain ⟨-, hk, hv, -⟩ := Memory.wfFrom_cons.mp hm
  refine ⟨k, hk, ?_⟩
  rw [Memory.read_cons, if_pos rfl, Memory.read_of_lt hn k.lt_succ_self]
  exact hv

/-- Memories whose first listed cells have one address, and that read alike, list one byte there and have tails that
read alike. -/
theorem Memory.tails_read_alike {k : Nat} {v w : Byte} {m n : Memory} (hk : k ≤ 255)
    (hm : Memory.wfFrom (k + 1) m = true) (hn : Memory.wfFrom (k + 1) n = true)
    (h : ∀ a ≤ 255, Memory.read ((k, v) :: m) a = Memory.read ((k, w) :: n) a) :
    v = w ∧ ∀ a ≤ 255, m.read a = n.read a := by
  simp only [Memory.read_cons] at h
  refine ⟨by simpa using h k hk, fun a ha => ?_⟩
  by_cases hka : k = a
  · rw [Memory.read_of_lt hm (by omega), Memory.read_of_lt hn (by omega)]
  · simpa [hka] using h a ha

/-- By induction along both lists: at each cell the first listed addresses agree, or one of them tells the memories
apart. -/
theorem Memory.eq_of_read_eq {lo : Nat} {m n : Memory} (hm : Memory.wfFrom lo m = true)
    (hn : Memory.wfFrom lo n = true) (h : ∀ a ≤ 255, m.read a = n.read a) : m = n := by
  induction m generalizing lo n with
  | nil =>
    cases n with
    | nil => rfl
    | cons d n =>
      obtain ⟨a, ha, hne⟩ := Memory.exists_read_ne (n := []) hn rfl
      exact absurd (h a ha).symm hne
  | cons c m ih =>
    obtain ⟨k, v⟩ := c
    obtain ⟨-, hk, hv, hm'⟩ := Memory.wfFrom_cons.mp hm
    cases n with
    | nil =>
      obtain ⟨a, ha, hne⟩ := Memory.exists_read_ne (n := []) hm rfl
      exact absurd (h a ha) hne
    | cons d n =>
      obtain ⟨j, w⟩ := d
      obtain ⟨-, hj, hw, hn'⟩ := Memory.wfFrom_cons.mp hn
      obtain hlt | rfl | hgt := Nat.lt_trichotomy k j
      · obtain ⟨a, ha, hne⟩ := Memory.exists_read_ne hm (Memory.wfFrom_cons.mpr ⟨hlt, hj, hw, hn'⟩)
        exact absurd (h a ha) hne
      · obtain ⟨rfl, htails⟩ := Memory.tails_read_alike hk hm' hn' h
        rw [ih hm' hn' htails]
      · obtain ⟨a, ha, hne⟩ := Memory.exists_read_ne hn (Memory.wfFrom_cons.mpr ⟨hgt, hk, hv, hm'⟩)
        exact absurd (h a ha).symm hne

/-- Settles O48: every address of the space is a byte, so the memories read alike from 0 to 255. -/
theorem canonicalMemoriesReadingAlikeAreEqual : Obligations.CanonicalMemoriesReadingAlikeAreEqual := by
  intro m n hm hn h
  refine Memory.eq_of_read_eq hm hn fun a ha => ?_
  have hbyte : (BitVec.ofNat 8 a).toNat = a := (BitVec.toNat_ofNat ..).trans (Nat.mod_eq_of_lt (by omega))
  exact hbyte ▸ h (BitVec.ofNat 8 a)

/-! ### What PUSH and CALL store -/

/-- `s.Pushes n p v`: in state `s` the instruction `n` pushes the byte `v`, at address `p` (R84, R86). -/
inductive State.Pushes (s : State) : Instr → Byte → Byte → Prop where
  | push {a p : Byte} {i : Fin 8} (ha : a.toNat = i) (hp : s.pushAddress = some p) :
      s.Pushes (.push a) p (if i = 7 then p else s.regs[i])
  | call {a p : Byte} (hp : s.pushAddress = some p) : s.Pushes (.call a) p s.returnAddress

theorem State.Pushes.address {s : State} {n : Instr} {p v : Byte} (h : s.Pushes n p v) : s.pushAddress = some p := by
  cases h <;> assumption

/-- PUSH reads its register after the decrement, so R7 gives the address it is pushed at (R84). -/
theorem State.reg_setReg_sp (s : State) (i : Fin 8) (p : Byte) :
    (s.setReg spIndex p).reg i = if i = 7 then p else s.regs[i] := by
  simp only [State.reg_setReg, spIndex_eq, eq_comm (a := i)]; rfl

/-- A push that completes has written its byte, and no other. -/
theorem Effect.mem_of_pushes {s u : State} {n : Instr} {p v : Byte} (h : Effect s n u) (hpush : s.Pushes n p v) :
    u.mem = s.mem.write p.toNat v := by
  cases hpush with
  | push ha hp =>
    cases h with
    | push hi hsp =>
      obtain rfl := Option.some.inj ((State.pushAddress_some hsp).symm.trans hp)
      obtain rfl := Fin.ext (hi.symm.trans ha)
      rw [State.store_mem, State.setReg_mem, State.reg_setReg_sp]
    | binary hn => cases hn
    | extended hn => cases hn
  | call hp =>
    cases h with
    | call hsp =>
      obtain rfl := Option.some.inj ((State.pushAddress_some hsp).symm.trans hp)
      rfl
    | binary hn => cases hn
    | extended hn => cases hn

/-- An instruction that completes leaves memory as it was, or pushes a byte. -/
theorem Effect.mem_eq_or_pushes {s u : State} {n : Instr} (h : Effect s n u) :
    u.mem = s.mem ∨ ∃ p v, s.Pushes n p v ∧ u.mem = s.mem.write p.toNat v := by
  have hpushes : ∀ p v, s.Pushes n p v → ∃ p v, s.Pushes n p v ∧ u.mem = s.mem.write p.toNat v :=
    fun p v hpush => ⟨p, v, hpush, h.mem_of_pushes hpush⟩
  cases h with
  | push ha hsp => exact .inr (hpushes _ _ (.push ha (State.pushAddress_some hsp)))
  | call hsp => exact .inr (hpushes _ _ (.call (State.pushAddress_some hsp)))
  | _ => exact .inl rfl

/-- An instruction that completes does not enter FAULTED. -/
theorem Effect.not_faulted {s u : State} {n : Instr} (h : Effect s n u) (hrun : s.run ≠ .faulted) (op : Byte)
    (k : Mnemonic) : ((u.advance op).haltAfter k).run ≠ .faulted := by
  obtain ⟨hu, -, -⟩ := h.run_fault_params
  rw [State.haltAfter_run, State.advance_run, hu]
  split
  · exact RunState.noConfusion
  · exact hrun

/-- An instruction leaves memory as it was, or pushes one byte and does not fault. -/
theorem exec_mem_cases {n : Instr} {s t : State} (h : exec n s = .next t) :
    t.mem = s.mem ∨
      ∃ p v, s.Pushes n p v ∧ t.mem = s.mem.write p.toNat v ∧ (s.run ≠ .faulted → t.run ≠ .faulted) := by
  obtain ⟨u, hu, rfl⟩ | ⟨f, -, rfl⟩ := exec_cases h
  · rw [State.haltAfter_mem, State.advance_mem]
    obtain hmem | ⟨p, v, hpush, hmem⟩ := hu.mem_eq_or_pushes
    · exact .inl hmem
    · exact .inr ⟨p, v, hpush, hmem, fun hrun => hu.not_faulted hrun _ _⟩
  · exact .inl rfl

/-- An instruction that pushes a byte and does not fault has stored it. -/
theorem exec_mem_of_pushes {n : Instr} {s t : State} {p v : Byte} (h : exec n s = .next t) (hrun : t.run ≠ .faulted)
    (hpush : s.Pushes n p v) : t.mem = s.mem.write p.toNat v := by
  obtain ⟨u, hu, rfl⟩ | ⟨f, -, rfl⟩ := exec_cases h
  · rw [State.haltAfter_mem, State.advance_mem, hu.mem_of_pushes hpush]
  · exact absurd rfl hrun

/-- Settles O43: either memory is as it was, or the instruction is a PUSH or CALL that did not fault and wrote one byte
at the decremented SP. -/
theorem onlyPushAndCallStore : Obligations.OnlyPushAndCallStore := by
  intro n s t hwf h
  obtain hmem | ⟨p, v, hpush, hmem, hrun⟩ := exec_mem_cases h
  · have hread : ∀ x, t.mem.read x = s.mem.read x := fun x => by rw [hmem]
    cases n with
    | push | call => exact ⟨fun _ _ x _ => hread x, fun _ => hread, fun _ _ => hread⟩
    | _ => exact hread
  · have hp := hpush.address
    have hframe : ∀ q, s.pushAddress = some q → ∀ x : Nat, x ≠ q.toNat → t.mem.read x = s.mem.read x := by
      intro q hq x hx
      obtain rfl := Option.some.inj (hp.symm.trans hq)
      rw [hmem, Memory.read_write_of_ne hwf hx]
    have hsome : s.pushAddress ≠ none := by simp [hp]
    cases hpush <;> exact ⟨hframe, fun hnone => absurd hnone hsome, fun hf hs => absurd hf (hrun hs)⟩

/-! ### The fetch window after a push -/

theorem State.windowByte_sub_pc {t : State} {x : Nat} (hx : t.pc ≤ x) : t.windowByte (x - t.pc) = t.mem.read x := by
  rw [State.windowByte, Nat.add_sub_cancel' hx]

theorem State.returnAddress_toNat {s : State} (hpc : s.pc ≤ 253) : s.returnAddress.toNat = s.pc + 2 :=
  (BitVec.toNat_ofNat ..).trans (Nat.mod_eq_of_lt (by omega))

/-- The fetch window of the next state holds the pushed byte at the address it was pushed at (R40). -/
theorem windowByte_of_pushes {n : Instr} {s t : State} {p v : Byte} (hwf : s.mem.wf = true) (h : exec n s = .next t)
    (hrun : t.run ≠ .faulted) (hpc : t.pc ≤ p.toNat) (hpush : s.Pushes n p v) :
    t.windowByte (p.toNat - t.pc) = v := by
  rw [State.windowByte_sub_pc hpc, exec_mem_of_pushes h hrun hpush, Memory.read_write_self hwf]

/-- Settles O51: a PUSH and a CALL that leave the engine RUNNING did not fault, so the window sees their byte; CALL's
is the return address, which is pc + 2 since that fits in a byte. -/
theorem fetchSeesByteJustPushed : Obligations.FetchSeesByteJustPushed := by
  intro s t a p hwf _ hp ht hpc
  have hrun : t.run ≠ .faulted := by simp [ht]
  constructor
  · intro i ha h
    exact windowByte_of_pushes hwf h hrun hpc (.push ha hp)
  · intro hspc h
    rw [windowByte_of_pushes hwf h hrun hpc (.call hp), State.returnAddress_toNat hspc]

end Sys2Proof.Machine
end

section
/-! PROOFS. The encoding (30_encoding.md): what the decoder reads of every byte, the round trip between instructions and
bytes under every admissible map, and the bytes that spell no instruction under the default one. -/

namespace Sys2Proof.Machine

/-! ### Operand bytes of an instruction -/

@[simp] theorem length_operandBytes (i : Instr) : i.operandBytes.length = i.mnemonic.operands := by cases i <;> rfl

/-- A window that begins with the operand bytes of an instruction holds its operands. -/
theorem instrOf_operandBytes_append (i : Instr) (rest : List Byte) :
    instrOf i.mnemonic ((i.operandBytes ++ rest).getD 0 0) ((i.operandBytes ++ rest).getD 1 0) = i := by
  cases i <;> rfl

theorem operandBytes_instrOf (k : Mnemonic) (a b : Byte) : (instrOf k a b).operandBytes = [a, b].take k.operands := by
  cases k <;> rfl

/-- An instruction made of the first bytes of a sequence has as its operands as many of them as its mnemonic takes. -/
theorem operandBytes_instrOf_getD {k : Mnemonic} {tail : List Byte} (h : k.operands ≤ tail.length) :
    (instrOf k (tail.getD 0 0) (tail.getD 1 0)).operandBytes = tail.take k.operands := by
  have hk := Mnemonic.operands_le_two k
  rw [operandBytes_instrOf]
  generalize k.operands = n at h hk
  match n, tail, h with
  | 0, _, _ => rfl
  | 1, _ :: _, _ => rfl
  | 2, _ :: _ :: _, _ => rfl

/-! ### Byte sequences -/

theorem decodeBytes_byteOf_cons (m : OpcodeMap) {k : Mnemonic} {tail : List Byte} (h : k.operands ≤ tail.length) :
    decodeBytes m (m.byteOf k :: tail) =
      .ok (instrOf k (tail.getD 0 0) (tail.getD 1 0), tail.drop k.operands) := by
  simp [decodeBytes, Nat.not_lt.mpr h]

/-- A byte sequence that decodes begins with the byte of a mnemonic and holds its operands. -/
theorem exists_byteOf_of_decodeBytes {m : OpcodeMap} {i : Instr} {bytes rest : List Byte}
    (h : decodeBytes m bytes = .ok (i, rest)) :
    ∃ k tail, bytes = m.byteOf k :: tail ∧ k.operands ≤ tail.length ∧
      i = instrOf k (tail.getD 0 0) (tail.getD 1 0) ∧ rest = tail.drop k.operands := by
  cases bytes with
  | nil => cases h
  | cons op tail =>
    cases hk : mnemonicOf m op with
    | none => simp [decodeBytes, hk] at h
    | some k =>
      obtain rfl := mnemonicOf_eq_some.mp hk
      by_cases hlen : k.operands ≤ tail.length
      · rw [decodeBytes_byteOf_cons m hlen] at h
        cases h
        exact ⟨k, tail, rfl, hlen, rfl, rfl⟩
      · simp [decodeBytes, Nat.not_le.mp hlen] at h

theorem decodeBytes_encode_append (m : OpcodeMap) (i : Instr) (rest : List Byte) :
    decodeBytes m (encode m i ++ rest) = .ok (i, rest) := by
  have hlen : i.mnemonic.operands ≤ (i.operandBytes ++ rest).length := by simp
  rw [encode, List.cons_append, decodeBytes_byteOf_cons m hlen, instrOf_operandBytes_append, ← length_operandBytes,
    List.drop_left]

theorem decodeWindow_of_begins_with_encode {m : OpcodeMap} {i : Instr} {op a b : Byte} (h : encode m i <+: [op, a, b]) :
    decodeWindow m op a b = .ok i := by
  obtain ⟨rest, h⟩ := h
  rw [encode, List.cons_append, List.cons_eq_cons] at h
  obtain ⟨rfl, hops⟩ := h
  have hi := instrOf_operandBytes_append i rest
  rw [hops] at hi
  exact (decodeWindow_byteOf m _ a b).trans (congrArg _ hi)

/-- Settles O29: the operand bytes of an instruction, whatever follows them, give it back with its mnemonic, and the
opcode byte gives the mnemonic and the operand count. -/
theorem decodeOfEncodeIsInstruction : Obligations.DecodeOfEncodeIsInstruction :=
  ⟨decodeBytes_encode_append, fun _ _ _ _ _ => decodeWindow_of_begins_with_encode⟩

/-- Settles O30: a decoded instruction's operands are the bytes taken after the opcode, and the rest is those dropped. -/
theorem decodedBytesAreTheEncoding : Obligations.DecodedBytesAreTheEncoding := by
  intro m i bytes rest h
  obtain ⟨k, tail, rfl, hlen, rfl, rfl⟩ := exists_byteOf_of_decodeBytes h
  rw [encode, mnemonic_instrOf, operandBytes_instrOf_getD hlen, List.cons_append, List.take_append_drop]

/-- Settles O28: the words are closed, and the decoder computes on them. -/
theorem specWordsDecode : Obligations.SpecWordsDecode := by
  unfold Obligations.SpecWordsDecode
  decide

/-! ### Every byte -/

theorem operandCount_eq_div (op : Byte) : operandCount op = op.toNat / 64 := by
  have hlt : op.toNat / 64 < 4 := by have := op.isLt; omega
  simp [operandCount, BitVec.extractLsb'_toNat, Nat.shiftRight_eq_div_pow, Nat.mod_eq_of_lt hlt]

theorem setsPC_iff (op : Byte) : setsPC op = true ↔ op.toNat / 16 % 2 = 1 := by
  simp [setsPC, BitVec.getLsbD, Nat.testBit_eq_decide_div_mod_eq]

/-- Settles O56: bits 7:6 are the quotient by 64, and bit 4 is the parity of the quotient by 16. -/
theorem decoderReadsCountAndSetsPcOfEveryByte : Obligations.DecoderReadsCountAndSetsPcOfEveryByte :=
  fun op => ⟨operandCount_eq_div op, setsPC_iff op⟩

/-! ### Bytes that spell no instruction -/

/-- The table of R49, in the order of `Mnemonic.all`. -/
theorem conventionalMap_bytes : Mnemonic.all.map (fun k => (conventionalMap.byteOf k).toNat) =
    [0x00, 0x01, 0x11, 0x45, 0x46, 0x47, 0x50, 0x54, 0x55, 0x56, 0x69, 0x82,
     0xA0, 0xA1, 0xA2, 0xA4, 0xA7, 0xAA, 0xAB, 0xAC, 0xAD] := rfl

/-- The byte values that R51 leaves undefined under the default map. -/
def Undefined (n : Nat) : Prop :=
  (0x02 ≤ n ∧ n ≤ 0x10) ∨ (0x12 ≤ n ∧ n ≤ 0x44) ∨ (0x48 ≤ n ∧ n ≤ 0x4F) ∨ (0x51 ≤ n ∧ n ≤ 0x53) ∨
  (0x57 ≤ n ∧ n ≤ 0x68) ∨ (0x6A ≤ n ∧ n ≤ 0x81) ∨ (0x83 ≤ n ∧ n ≤ 0x9F) ∨ n = 0xA3 ∨ n = 0xA5 ∨ n = 0xA6 ∨
  n = 0xA8 ∨ n = 0xA9 ∨ 0xAE ≤ n

/-- The undefined values are the gaps of the table. -/
theorem undefined_iff_no_mnemonic (op : Byte) : Undefined op.toNat ↔ ∀ k, conventionalMap.byteOf k ≠ op := by
  have hmem : (∀ k, conventionalMap.byteOf k ≠ op) ↔
      op.toNat ∉ Mnemonic.all.map (fun k => (conventionalMap.byteOf k).toNat) := by
    simp [Mnemonic.mem_all, BitVec.toNat_inj]
  rw [hmem, conventionalMap_bytes]
  simp only [Undefined, List.mem_cons, List.not_mem_nil, or_false]
  omega

/-- The fetch of a window that fits is its decoding, with a failed one recorded as UnknownOpcode. -/
theorem State.FetchesWindow.fetch_eq {s : State} {op a b : Byte} (h : s.FetchesWindow op a b) :
    s.fetch = (decodeWindow s.params.opcodes op a b).mapError
      (fun _ => { kind := .unknownOpcode, pc := s.pc, opcode := some op }) := by
  have hbytes : decodeWindow s.params.opcodes (s.windowByte 0) (s.windowByte 1) (s.windowByte 2) =
      decodeWindow s.params.opcodes op a b := by
    obtain ⟨-, -, rfl, rfl, rfl⟩ := h; rfl
  have hop : s.windowByte 0 = op := h.opcode
  rw [State.fetch, if_pos (State.windowFits_iff.mpr h.fits), hbytes, hop]
  cases decodeWindow s.params.opcodes op a b <;> rfl

/-- A window whose opcode byte is no mnemonic's fails the fetch (R51, R94). -/
theorem State.FetchesWindow.fetch_of_no_mnemonic {s : State} {op a b : Byte} (h : s.FetchesWindow op a b)
    (hop : ∀ k, s.params.opcodes.byteOf k ≠ op) :
    s.fetch = .error { kind := .unknownOpcode, pc := s.pc, opcode := some op } := by
  rw [h.fetch_eq, decodeWindow_eq_error.mpr ⟨rfl, hop⟩]; rfl

/-- Settles O31: the listed values are those between the table's bytes, so the map has no mnemonic for them. -/
theorem undefinedOpcodesAreThe235 : Obligations.UndefinedOpcodesAreThe235 := by
  intro op
  have hiff := undefined_iff_no_mnemonic op
  refine ⟨fun a b => ?_, fun hundef s a b hmap hwindow => ?_⟩
  · rw [decodeWindow_eq_error, ← hiff]
    exact and_iff_right rfl
  · have hop : ∀ k, s.params.opcodes.byteOf k ≠ op := hmap ▸ hiff.mp hundef
    exact step_of_fetch_error hwindow.running (hwindow.fetch_of_no_mnemonic hop)

end Sys2Proof.Machine
end

section
/-! PROOFS. The text of a program image (R56 of 30_encoding.md): lines that give no byte, a line of eight binary digits,
and the lines of a text. -/

namespace Sys2Proof.Machine

/-! ### Lines that give no byte -/

theorem parseLines_cons_ok {l : List Char} {vs : List Byte} (h : parseLine l = .ok vs) (ls : List (List Char)) :
    parseLines (l :: ls) = (vs ++ ·) <$> parseLines ls := by
  rw [parseLines, h]; rfl

theorem parseLines_cons_empty {l : List Char} (h : parseLine l = .ok []) (ls : List (List Char)) :
    parseLines (l :: ls) = parseLines ls :=
  (parseLines_cons_ok h ls).trans (id_map (parseLines ls))

theorem parseLine_comment (l : List Char) : parseLine ('#' :: l) = .ok [] := rfl

theorem trimBlanks_of_all_blank {l : List Char} (h : ∀ c ∈ l, isBlankChar c = true) : trimBlanks l = [] := by
  simp [trimBlanks, List.dropWhile_eq_nil_iff.mpr h]

theorem parseLine_blank {l : List Char} (h : ∀ c ∈ l, isBlankChar c = true) : parseLine l = .ok [] := by
  simp [parseLine, trimBlanks_of_all_blank h]

/-! ### Lines of binary digits -/

def binaryDigit (b : Bool) : Char := if b then '1' else '0'

theorem isBlankChar_binaryDigit (b : Bool) : isBlankChar (binaryDigit b) = false := by cases b <;> rfl

theorem binaryDigit_ne_comment (b : Bool) : binaryDigit b ≠ '#' := by cases b <;> decide

/-- A literal is read as its digits in base 2, the first the highest. -/
theorem binaryValueFrom_binaryDigit (bits : List Bool) (acc : Nat) :
    binaryValueFrom acc (bits.map binaryDigit) = some (bits.foldl (fun n b => 2 * n + b.toNat) acc) := by
  induction bits generalizing acc with
  | nil => rfl
  | cons b bits ih =>
    rw [List.foldl_cons, ← ih]
    cases b <;> rfl

theorem dropWhile_of_no_blank {l : List Char} (h : ∀ c ∈ l, isBlankChar c = false) : l.dropWhile isBlankChar = l :=
  List.dropWhile_eq_self_iff.mpr fun _ => by simp [h _ (List.getElem_mem _)]

theorem trimBlanks_of_no_blank {l : List Char} (h : ∀ c ∈ l, isBlankChar c = false) : trimBlanks l = l := by
  have hrev : ∀ c ∈ l.reverse, isBlankChar c = false := fun c hc => h c (List.mem_reverse.mp hc)
  rw [trimBlanks, dropWhile_of_no_blank h, dropWhile_of_no_blank hrev, List.reverse_reverse]

theorem parseLine_binaryDigit {bits : List Bool} (hne : bits ≠ []) :
    parseLine (bits.map binaryDigit) = (fun v => [v]) <$> parseToken (bits.map binaryDigit) := by
  obtain ⟨b, bits, rfl⟩ := List.exists_cons_of_ne_nil hne
  have htrim : trimBlanks ((b :: bits).map binaryDigit) = (b :: bits).map binaryDigit :=
    trimBlanks_of_no_blank (List.forall_mem_map.mpr fun b _ => isBlankChar_binaryDigit b)
  rw [parseLine, htrim, if_neg (by simp [binaryDigit_ne_comment]), if_neg (by simp)]
  rfl

/-- Reading the `n` low bits of a number, the highest first, gives the number modulo 2 ^ n. -/
theorem foldl_testBit (x n acc : Nat) :
    ((List.range n).reverse.map x.testBit).foldl (fun m b => 2 * m + b.toNat) acc = acc * 2 ^ n + x % 2 ^ n := by
  induction n generalizing acc with
  | zero => simp [Nat.mod_one]
  | succ n ih =>
    rw [List.range_succ, List.reverse_append, List.reverse_singleton, List.singleton_append, List.map_cons,
      List.foldl_cons, ih, Nat.mod_pow_succ, Nat.toNat_testBit]
    ring

/-- The bits of a byte, bit 7 first. -/
def bitsOf (v : Byte) : List Bool := [7, 6, 5, 4, 3, 2, 1, 0].map v.getLsbD

theorem foldl_bitsOf (v : Byte) : (bitsOf v).foldl (fun n b => 2 * n + b.toNat) 0 = v.toNat := by
  have hbits : bitsOf v = (List.range 8).reverse.map v.toNat.testBit := rfl
  rw [hbits, foldl_testBit, Nat.zero_mul, Nat.zero_add, Nat.mod_eq_of_lt v.isLt]

theorem parseToken_bitsOf (v : Byte) : parseToken ((bitsOf v).map binaryDigit) = .ok v := by
  have hval : binaryValueFrom 0 ((bitsOf v).map binaryDigit) = some v.toNat := by
    rw [binaryValueFrom_binaryDigit, foldl_bitsOf]
  have hle : v.toNat ≤ 255 := Nat.le_of_lt_succ v.isLt
  unfold parseToken
  split
  · contradiction
  · rw [hval]
    simp [hle]

theorem parseLine_bitsOf (v : Byte) : parseLine ((bitsOf v).map binaryDigit) = .ok [v] := by
  rw [parseLine_binaryDigit (bits := bitsOf v) (List.cons_ne_nil _ _), parseToken_bitsOf]; rfl

/-! ### The lines of a text -/

theorem splitLines_newline (text : List Char) : splitLines ('\n' :: text) = [] :: splitLines text := rfl

/-- A character that is no line feed stands at the beginning of the first line. -/
theorem splitLines_cons {c : Char} (hc : c ≠ '\n') {text l : List Char} {ls : List (List Char)}
    (h : splitLines text = l :: ls) : splitLines (c :: text) = (c :: l) :: ls := by
  rw [splitLines, if_neg hc, h]

theorem splitLines_append {l : List Char} (hl : '\n' ∉ l) {text : List Char} {ls : List (List Char)}
    (h : splitLines text = [] :: ls) : splitLines (l ++ text) = l :: ls := by
  induction l with
  | nil => exact h
  | cons c l ih =>
    rw [List.mem_cons, not_or] at hl
    obtain ⟨hc, hl⟩ := hl
    exact splitLines_cons (Ne.symm hc) (ih hl)

theorem splitLines_intercalate {ls : List (List Char)} (hne : ls ≠ []) (h : ∀ l ∈ ls, '\n' ∉ l) :
    splitLines (['\n'].intercalate ls) = ls := by
  induction ls with
  | nil => contradiction
  | cons l ls ih =>
    obtain ⟨hl, hls⟩ := List.forall_mem_cons.mp h
    cases ls with
    | nil => simpa using splitLines_append hl (text := []) rfl
    | cons l' ls =>
      have htail : splitLines ('\n' :: ['\n'].intercalate (l' :: ls)) = [] :: l' :: ls := by
        rw [splitLines_newline, ih (List.cons_ne_nil _ _) hls]
      simpa using splitLines_append hl htail

/-- Settles O27: comments and blank lines give no byte, eight digits are read in base 2, and splitting at line feeds
undoes joining with them. -/
theorem imageTextHoldsOneBytePerLine : Obligations.ImageTextHoldsOneBytePerLine := by
  refine ⟨fun l ls => parseLines_cons_empty (parseLine_comment l) ls, fun l ls hl => ?_, fun v ls bytes h => ?_,
    fun ls hne h => congrArg parseLines (splitLines_intercalate hne h)⟩
  · refine parseLines_cons_empty (parseLine_blank fun c hc => ?_) ls
    rw [hl c hc]; rfl
  · exact (parseLines_cons_ok (parseLine_bitsOf v) ls).trans (congrArg _ h)

end Sys2Proof.Machine
end

section
/-! PROOFS. Ignored operand bytes (R52 of 30_encoding.md): the decoder reads no byte past the operand count, and what a
step does depends on memory only through the bytes it reads. -/

namespace Sys2Proof.Machine

/-! ### The window -/

theorem instrOf_congr {k : Mnemonic} {a b a' b' : Byte} (ha : 0 < k.operands → a' = a) (hb : 1 < k.operands → b' = b) :
    instrOf k a' b' = instrOf k a b := by
  cases k with
  | nop | hlt | ret => rfl
  | push | pop | prn | call | jmp | jeq | jne | not => rw [ha (by decide)]; rfl
  | ldi | add | sub | mul | mod | cmp | or | xor | shl | shr => rw [ha (by decide), hb (by decide)]

/-- The decoder looks at an operand byte only within the operand count that the opcode gives. -/
theorem decodeWindow_congr (m : OpcodeMap) {op a b a' b' : Byte} (ha : 0 < operandCount op → a' = a)
    (hb : 1 < operandCount op → b' = b) : decodeWindow m op a' b' = decodeWindow m op a b := by
  cases hk : mnemonicOf m op with
  | none => simp [decodeWindow, hk]
  | some k =>
    obtain rfl := mnemonicOf_eq_some.mp hk
    rw [operandCount_byteOf] at ha hb
    rw [decodeWindow_byteOf, decodeWindow_byteOf, instrOf_congr ha hb]

/-- States alike but for memory fetch alike if the windows decode alike. -/
theorem State.fetch_congr {s t : State} (hrest : t = { s with mem := t.mem }) {op a b a' b' : Byte}
    (hs : s.FetchesWindow op a b) (ht : t.FetchesWindow op a' b')
    (hdecode : decodeWindow s.params.opcodes op a' b' = decodeWindow s.params.opcodes op a b) : t.fetch = s.fetch := by
  have hpc : t.pc = s.pc := by rw [hrest]
  have hparams : t.params = s.params := by rw [hrest]
  rw [ht.fetch_eq, hs.fetch_eq, hpc, hparams, hdecode]

/-! ### States alike but for memory -/

/-- `t` is `s` but for memory; both memories are canonical, and they read alike at the addresses in `A`. -/
inductive State.AgreesOn (A : Nat → Prop) (s : State) : State → Prop where
  | intro {m : Memory} (hs : s.mem.wf = true) (hm : m.wf = true) (hread : ∀ x, A x → m.read x = s.mem.read x) :
      s.AgreesOn A { s with mem := m }

/-- Two answers of a handler: the same fault, or states that agree. -/
inductive AnswersAgree (A : Nat → Prop) : Except FaultKind State → Except FaultKind State → Prop where
  | error (f : FaultKind) : AnswersAgree A (.error f) (.error f)
  | ok {s t : State} (h : s.AgreesOn A t) : AnswersAgree A (.ok s) (.ok t)

section
variable {A : Nat → Prop} {s t : State}

theorem State.AgreesOn.mono {B : Nat → Prop} (hBA : ∀ x, B x → A x) (h : s.AgreesOn A t) : s.AgreesOn B t := by
  obtain ⟨hs, hm, hread⟩ := h
  exact ⟨hs, hm, fun x hx => hread x (hBA x hx)⟩

/-! ### What agreeing states have in common -/

theorem State.AgreesOn.reg (h : s.AgreesOn A t) (i : Fin 8) : t.reg i = s.reg i := by cases h; rfl
theorem State.AgreesOn.sp (h : s.AgreesOn A t) : t.sp = s.sp := h.reg spIndex
theorem State.AgreesOn.params (h : s.AgreesOn A t) : t.params = s.params := by cases h; rfl
theorem State.AgreesOn.opcode (h : s.AgreesOn A t) (k : Mnemonic) : t.opcode k = s.opcode k := by cases h; rfl
theorem State.AgreesOn.pc (h : s.AgreesOn A t) : t.pc = s.pc := by cases h; rfl
theorem State.AgreesOn.run (h : s.AgreesOn A t) : t.run = s.run := by cases h; rfl
theorem State.AgreesOn.equalBit (h : s.AgreesOn A t) : t.equalBit = s.equalBit := by cases h; rfl
theorem State.AgreesOn.returnAddress (h : s.AgreesOn A t) : t.returnAddress = s.returnAddress := by cases h; rfl

theorem State.AgreesOn.readOperand (h : s.AgreesOn A t) (a : Byte) : t.readOperand a = s.readOperand a := by cases h; rfl

theorem State.AgreesOn.load (h : s.AgreesOn A t) {a : Byte} (ha : A a.toNat) : t.load a = s.load a := by
  obtain ⟨-, -, hread⟩ := h
  exact hread a.toNat ha

/-! ### Updates keep agreement -/

/-- An update that neither reads nor writes memory. -/
theorem State.AgreesOn.map (h : s.AgreesOn A t) {f : State → State}
    (hread : ∀ (u : State) (m : Memory), f { u with mem := m } = { f u with mem := m })
    (hwrite : ∀ u, (f u).mem = u.mem) : (f s).AgreesOn A (f t) := by
  obtain @⟨m, hs, hm, halike⟩ := h
  rw [hread s m]
  exact ⟨by rw [hwrite, hs], hm, by rwa [hwrite]⟩

theorem State.AgreesOn.setReg (h : s.AgreesOn A t) (i : Fin 8) (v : Byte) : (s.setReg i v).AgreesOn A (t.setReg i v) :=
  h.map (fun _ _ => rfl) fun u => u.setReg_mem i v

theorem State.AgreesOn.setFl (h : s.AgreesOn A t) (v : Byte) : (s.setFl v).AgreesOn A (t.setFl v) :=
  h.map (fun _ _ => rfl) fun u => u.setFl_mem v

theorem State.AgreesOn.emit (h : s.AgreesOn A t) (v : Byte) : (s.emit v).AgreesOn A (t.emit v) :=
  h.map (fun _ _ => rfl) fun u => u.emit_mem v

theorem State.AgreesOn.jump (h : s.AgreesOn A t) (v : Byte) : (s.jump v).AgreesOn A (t.jump v) :=
  h.map (fun _ _ => rfl) fun u => u.jump_mem v

theorem State.AgreesOn.fallThrough (h : s.AgreesOn A t) : s.fallThrough.AgreesOn A t.fallThrough :=
  h.map (fun _ _ => rfl) State.fallThrough_mem

theorem State.AgreesOn.enterFaulted (h : s.AgreesOn A t) (r : FaultRecord) :
    (s.enterFaulted r).AgreesOn A (t.enterFaulted r) :=
  h.map (fun _ _ => rfl) fun u => u.enterFaulted_mem r

theorem State.AgreesOn.advance (h : s.AgreesOn A t) (op : Byte) : (s.advance op).AgreesOn A (t.advance op) :=
  h.map (fun _ _ => by unfold State.advance; split <;> rfl) fun u => u.advance_mem op

theorem State.AgreesOn.haltAfter (h : s.AgreesOn A t) (k : Mnemonic) : (s.haltAfter k).AgreesOn A (t.haltAfter k) :=
  h.map (fun _ _ => by unfold State.haltAfter; split <;> rfl) fun u => u.haltAfter_mem k

/-- A store makes the states agree on the byte it writes. -/
theorem State.AgreesOn.store (h : s.AgreesOn A t) (p v : Byte) :
    (s.store p v).AgreesOn (fun x => A x ∨ x = p.toNat) (t.store p v) := by
  obtain @⟨m, hs, hm, hread⟩ := h
  have hp : p.toNat ≤ 255 := Nat.le_of_lt_succ p.isLt
  refine ⟨Memory.wf_write hs hp v, Memory.wf_write hm hp v, fun x hx => ?_⟩
  change (m.write p.toNat v).read x = (s.mem.write p.toNat v).read x
  rw [Memory.read_write_from hm, Memory.read_write_from hs]
  by_cases hpx : p.toNat = x
  · rw [if_pos hpx, if_pos hpx]
  · rw [if_neg hpx, if_neg hpx]
    exact hread x (hx.resolve_right (Ne.symm hpx))

theorem State.AgreesOn.storeAtSp (h : s.AgreesOn A t) (v : Byte) :
    (s.storeAtSp v).AgreesOn (fun x => A x ∨ x = s.sp.toNat) (t.storeAtSp v) := by
  unfold State.storeAtSp
  rw [h.sp]
  exact h.store s.sp v

/-! ### Parts of a handler -/

theorem AnswersAgree.mono {B : Nat → Prop} (hBA : ∀ x, B x → A x) {r r' : Except FaultKind State}
    (h : AnswersAgree A r r') : AnswersAgree B r r' := by
  cases h with
  | error f => exact .error f
  | ok h => exact .ok (h.mono hBA)

/-- A part that answers a value alike in both states. -/
theorem AnswersAgree.bind_value {α : Type} (e : Except FaultKind α) {f g : α → Except FaultKind State}
    (hfg : ∀ x, AnswersAgree A (f x) (g x)) : AnswersAgree A (e >>= f) (e >>= g) := by
  cases e with
  | error r => exact .error r
  | ok x => exact hfg x

/-- A part that answers states that agree. -/
theorem AnswersAgree.bind_state {r r' : Except FaultKind State} {f g : State → Except FaultKind State}
    (hr : AnswersAgree A r r') (hfg : ∀ u w, u.AgreesOn A w → AnswersAgree A (f u) (g w)) :
    AnswersAgree A (r >>= f) (r' >>= g) := by
  cases hr with
  | error e => exact .error e
  | ok h => exact hfg _ _ h

theorem State.AgreesOn.decrementSp (h : s.AgreesOn A t) : AnswersAgree A s.decrementSp t.decrementSp := by
  unfold State.decrementSp
  rw [h.sp]
  split
  · exact .error _
  · exact .ok (h.setReg _ _)

theorem State.AgreesOn.incrementSp (h : s.AgreesOn A t) : AnswersAgree A s.incrementSp t.incrementSp := by
  unfold State.incrementSp
  rw [h.sp]
  split
  · exact .error _
  · exact .ok (h.setReg _ _)

theorem State.AgreesOn.aluBinary (h : s.AgreesOn A t) (f : Byte → Byte → Byte) (a b : Byte) :
    AnswersAgree A (aluBinary f a b s) (aluBinary f a b t) := by
  refine .bind_value _ fun i => .bind_value _ fun j => ?_
  rw [h.reg, h.reg]
  exact .ok (h.setReg _ _)

theorem State.AgreesOn.extendedAlu (h : s.AgreesOn A t) {r r' : Except FaultKind State} (hr : AnswersAgree A r r') :
    AnswersAgree A (extendedAlu s r) (extendedAlu t r') := by
  unfold Machine.extendedAlu
  rw [h.params]
  split
  · exact .error _
  · exact hr

theorem State.AgreesOn.branch (h : s.AgreesOn A t) (taken : Bool) (a : Byte) :
    AnswersAgree A (s.branch taken a) (t.branch taken a) := by
  cases taken with
  | false => exact .ok h.fallThrough
  | true =>
    unfold State.branch
    rw [h.readOperand]
    exact .bind_value _ fun v => .ok (h.jump v)

/-! ### The instructions -/

/-- `t` answers a next state that agrees with each next state that `s` answers. -/
def OutcomesAgree (A : Nat → Prop) (o o' : Host.Outcome State Fault Refusal) : Prop :=
  ∀ s', o = .next s' → ∃ t', o' = .next t' ∧ s'.AgreesOn A t'

theorem State.AgreesOn.conclude (h : s.AgreesOn A t) (k : Mnemonic) {r r' : Except FaultKind State}
    (hr : AnswersAgree A r r') : OutcomesAgree A (s.conclude k r) (t.conclude k r') := by
  rintro s' hs'
  cases hr with
  | error f =>
    cases hs'
    refine ⟨_, rfl, ?_⟩
    rw [h.opcode, h.pc]
    exact h.enterFaulted _
  | ok hu =>
    cases hs'
    refine ⟨_, rfl, ?_⟩
    rw [h.opcode]
    exact (hu.advance _).haltAfter _

/-- PUSH reads its register after the decrement, and reads no memory. -/
theorem State.AgreesOn.execPush (h : s.AgreesOn A t) (a : Byte) : OutcomesAgree A (execPush a s) (execPush a t) := by
  refine h.conclude .push (.bind_value _ fun i => h.decrementSp.bind_state fun u w hu => ?_)
  rw [hu.reg]
  exact .ok ((hu.storeAtSp _).mono fun _ => .inl)

theorem State.AgreesOn.execPop (h : s.AgreesOn A t) (a : Byte) (hsp : A s.sp.toNat) :
    OutcomesAgree A (execPop a s) (execPop a t) := by
  refine h.conclude .pop (.bind_value _ fun i => ?_)
  rw [h.sp, h.load hsp]
  exact (h.setReg _ _).incrementSp

theorem State.AgreesOn.execRet (h : s.AgreesOn A t) (hsp : A s.sp.toNat) : OutcomesAgree A (execRet s) (execRet t) := by
  refine h.conclude .ret (h.incrementSp.bind_state fun u w hu => ?_)
  rw [h.sp, h.load hsp]
  exact .ok (hu.jump _)

/-- The end of CALL, after its push: the operand addresses a byte on which the states agree. -/
theorem State.AgreesOn.jumpIndirect (h : s.AgreesOn A t) {a : Byte} (ha : A a.toNat) :
    AnswersAgree A (do let target ← s.readIndirectOperand a; pure (s.jump target))
      (do let target ← t.readIndirectOperand a; pure (t.jump target)) := by
  unfold State.readIndirectOperand
  rw [h.load ha, h.readOperand]
  exact .bind_value _ fun v => .ok (h.jump v)

/-- CALL reads a byte on which the states agree, or the byte that its push has just stored. -/
theorem State.AgreesOn.execCall (h : s.AgreesOn A t) {a : Byte} (ha : s.pushAddress ≠ some a → A a.toNat) :
    OutcomesAgree A (execCall a s) (execCall a t) := by
  refine h.conclude .call ?_
  by_cases hsp : s.sp = 0
  · rw [State.decrementSp_error hsp, State.decrementSp_error (h.sp.trans hsp)]
    exact .error _
  · have hread : A a.toNat ∨ a.toNat = (s.sp - 1).toNat := by
      rw [State.pushAddress_some hsp] at ha
      by_cases hp : s.sp - 1 = a
      · exact .inr (hp ▸ rfl)
      · exact .inl (ha (mt Option.some.inj hp))
    have hpushed := (h.setReg spIndex (s.sp - 1)).storeAtSp s.returnAddress
    rw [State.sp_setReg_sp] at hpushed
    rw [State.decrementSp_ok hsp, State.decrementSp_ok (h.sp.trans_ne hsp), h.sp, h.returnAddress]
    exact (hpushed.jumpIndirect hread).mono fun _ => .inl

theorem State.AgreesOn.execMod (h : s.AgreesOn A t) (a b : Byte) : OutcomesAgree A (execMod a b s) (execMod a b t) := by
  refine h.conclude .mod (h.extendedAlu (.bind_value _ fun i => .bind_value _ fun j => ?_))
  rw [h.reg, h.reg]
  split
  · exact .error _
  · exact .ok (h.setReg _ _)

/-- States that agree on what an instruction reads as data answer states that agree. -/
theorem State.AgreesOn.exec (h : s.AgreesOn A t) (n : Instr) (hdata : ∀ x ∈ s.dataReads n, A x) :
    OutcomesAgree A (exec n s) (exec n t) := by
  cases n with
  | nop => exact h.conclude .nop (.ok h)
  | hlt => exact h.conclude .hlt (.ok h)
  | ret => exact h.execRet (hdata _ List.mem_cons_self)
  | push a => exact h.execPush a
  | pop a => exact h.execPop a (hdata _ List.mem_cons_self)
  | prn a =>
    refine h.conclude .prn ?_
    rw [h.readOperand]
    exact .bind_value _ fun v => .ok (h.emit v)
  | call a => exact h.execCall fun hp => hdata _ (by simp [State.dataReads, hp])
  | jmp a =>
    refine h.conclude .jmp ?_
    rw [h.readOperand]
    exact .bind_value _ fun v => .ok (h.jump v)
  | jeq a => exact h.conclude .jeq (h.equalBit ▸ h.branch s.equalBit a)
  | jne a => exact h.conclude .jne (h.equalBit ▸ h.branch (!s.equalBit) a)
  | not a =>
    refine h.conclude .not (h.extendedAlu (.bind_value _ fun i => ?_))
    rw [h.reg]
    exact .ok (h.setReg _ _)
  | ldi a b => exact h.conclude .ldi (.bind_value _ fun i => .ok (h.setReg i b))
  | add a b => exact h.conclude .add (h.aluBinary aluAdd a b)
  | sub a b => exact h.conclude .sub (h.aluBinary aluSub a b)
  | mul a b => exact h.conclude .mul (h.aluBinary aluMul a b)
  | mod a b => exact h.execMod a b
  | cmp a b =>
    refine h.conclude .cmp (.bind_value _ fun i => .bind_value _ fun j => ?_)
    rw [h.reg, h.reg]
    exact .ok (h.setFl _)
  | or a b => exact h.conclude .or (h.extendedAlu (h.aluBinary aluOr a b))
  | xor a b => exact h.conclude .xor (h.extendedAlu (h.aluBinary aluXor a b))
  | shl a b => exact h.conclude .shl (h.extendedAlu (h.aluBinary aluShl a b))
  | shr a b => exact h.conclude .shr (h.extendedAlu (h.aluBinary aluShr a b))

/-! ### The step -/

/-- States that fetch alike, and agree on what the instruction fetched reads as data, step alike. -/
theorem State.AgreesOn.step (h : s.AgreesOn A t) (hfetch : t.fetch = s.fetch)
    (hdata : ∀ n, s.fetch = .ok n → ∀ x ∈ s.dataReads n, A x) : OutcomesAgree A (step s) (step t) := by
  intro s' hs'
  obtain ⟨hrun, ⟨r, hr, rfl⟩ | ⟨n, hn, hexec⟩⟩ := step_cases hs'
  · exact ⟨_, step_of_fetch_error (h.run.trans hrun) (hfetch.trans hr), h.enterFaulted r⟩
  · rw [step_of_fetch_ok (h.run.trans hrun) (hfetch.trans hn)]
    exact h.exec n (hdata n hn) s' hexec

end

/-- The window of a state that agrees on every byte but the ignored ones: its opcode is the same, and so are its operand
bytes within the operand count. -/
theorem State.AgreesOn.fetch_of_ignoresByte {s t : State} {op a b : Byte} (hs : s.FetchesWindow op a b)
    (h : s.AgreesOn (fun x => ¬ s.IgnoresByte op x) t) : t.fetch = s.fetch := by
  have hread : ∀ j ≤ operandCount op, t.mem.read (s.pc + j) = s.mem.read (s.pc + j) := by
    intro j hj
    obtain ⟨-, -, hread⟩ := h
    exact hread _ fun hignored => absurd hignored.1 (by omega)
  have ht : t.FetchesWindow op (t.mem.read (s.pc + 1)) (t.mem.read (s.pc + 2)) := {
    running := h.run.trans hs.running
    fits := h.pc ▸ hs.fits
    opcode := by rw [h.pc, ← hs.opcode]; exact hread 0 (Nat.zero_le _)
    operandA := by rw [h.pc]
    operandB := by rw [h.pc] }
  refine State.fetch_congr (by cases h; rfl) hs ht (decodeWindow_congr _ (fun h1 => ?_) fun h2 => ?_)
  · exact (hread 1 h1).trans hs.operandA
  · exact (hread 2 h2).trans hs.operandB

theorem State.FetchesWindow.decodeWindow_of_fetch {s : State} {op a b : Byte} (h : s.FetchesWindow op a b) {n : Instr}
    (hn : s.fetch = .ok n) : decodeWindow s.params.opcodes op a b = .ok n := by
  obtain ⟨-, -, rfl, rfl, rfl⟩ := h
  exact (State.fetch_eq_ok.mp hn).2

/-- Settles O32: the window is decoded without the ignored bytes, and the states agree on all the others, so on what the
instruction reads as data. -/
theorem ignoredOperandBytesHaveNoEffect : Obligations.IgnoredOperandBytesHaveNoEffect := by
  refine ⟨fun m op a b a' b' => ⟨fun hone => ?_, fun hzero => ?_, fun s t _ hs hrest ht => ?_⟩, ?_⟩
  · exact decodeWindow_congr m (fun _ => rfl) fun h => by omega
  · exact decodeWindow_congr m (fun h => by omega) fun h => by omega
  · obtain ⟨hone, ht⟩ | ⟨hzero, ht⟩ := ht
    · exact State.fetch_congr hrest hs ht (decodeWindow_congr _ (fun _ => rfl) fun h => by omega)
    · exact State.fetch_congr hrest hs ht (decodeWindow_congr _ (fun h => by omega) fun h => by omega)
  · intro s t s' op a b hswf htwf hs hrest hread hdata hstep
    have hagree : s.AgreesOn (fun x => ¬ s.IgnoresByte op x) t := hrest ▸ ⟨hswf, htwf, hread⟩
    obtain ⟨t', ht', hagree'⟩ := hagree.step (hagree.fetch_of_ignoresByte hs)
      (fun n hn x => hdata n x (hs.decodeWindow_of_fetch hn)) s' hstep
    obtain ⟨-, -, hread'⟩ := hagree'
    exact ⟨_, ht', rfl, hread'⟩

end Sys2Proof.Machine
end

section
/-! PROOFS. The execution loop (R57, R61, R63 to R65 of 40_execution_loop.md): when a step is taken, what it runs, and
how it ends HALTED. -/

namespace Sys2Proof.Machine

/-! ### When a step is taken -/

/-- A RUNNING engine's step answers a next state: a failed fetch and a faulting instruction do so too (R92). -/
theorem exists_step_of_running {s : State} (hr : s.run = .running) : ∃ t, step s = .next t := by
  cases hf : s.fetch with
  | error r => exact ⟨_, step_of_fetch_error hr hf⟩
  | ok n => exact step_of_fetch_ok hr hf ▸ exec_next n s

/-- Settles O34: a step that answers was taken in a RUNNING state, and in every RUNNING state one is. -/
theorem stepEnabledExactlyWhenRunning : Obligations.StepEnabledExactlyWhenRunning :=
  ⟨fun _ => ⟨fun ⟨_, h⟩ => (step_cases h).1, exists_step_of_running⟩, rfl, rfl⟩

/-- Settles O55: the inversion of a step that answers says it was taken in a RUNNING state. -/
theorem noStepUnlessRunning : Obligations.NoStepUnlessRunning :=
  ⟨fun _ _ h => (step_cases h).1, rfl, rfl⟩

/-! ### What a step runs -/

/-- Settles O33: the window that fits and decodes is what the fetch answers, and the step of a RUNNING engine executes
what is fetched. -/
theorem stepRunsDecodedInstruction : Obligations.StepRunsDecodedInstruction := by
  intro s op a b i hwindow hdecode
  exact step_of_fetch_ok hwindow.running (State.fetch_of_fetchesWindow hwindow hdecode)

theorem step_of_fetches {s : State} {i : Instr} (h : s.Fetches i) : step s = exec i s := by
  obtain ⟨op, a, b, hwindow, hdecode⟩ := h
  exact stepRunsDecodedInstruction s op a b i hwindow hdecode

/-! ### How a step ends HALTED -/

theorem mnemonic_eq_hlt {n : Instr} : n.mnemonic = .hlt ↔ n = .hlt := by
  cases n <;> simp [Instr.mnemonic]

/-- HLT completes, and the loop then sets HALTED (R63, R66). -/
theorem run_of_exec_hlt {s t : State} (h : exec .hlt s = .next t) : t.run = .halted := by
  have hexec : exec .hlt s = .next ((s.advance (s.opcode .hlt)).haltAfter .hlt) := s.conclude_ok .hlt s
  rw [hexec] at h
  cases h
  simp

/-- An instruction that completes and is not HLT leaves the run state (R63). -/
theorem State.CompletesTo.run_of_ne_hlt {s t : State} {n : Instr} (h : s.CompletesTo n t) (hn : n ≠ .hlt) :
    t.run = s.run := by
  obtain ⟨-, u, hu, rfl⟩ := h
  obtain ⟨hrun, -, -⟩ := hu.run_fault_params
  rw [State.haltAfter_run, if_neg (mt mnemonic_eq_hlt.mp hn), State.advance_run, hrun]

/-- A step that ends HALTED has fetched HLT: a fault ends FAULTED, and any other instruction that completes leaves the
engine RUNNING. -/
theorem fetches_hlt_of_step_halted {s t : State} (h : step s = .next t) (ht : t.run = .halted) : s.Fetches .hlt := by
  have hr : s.run = .running := (step_cases h).1
  obtain ⟨r, rfl, -, -⟩ | ⟨n, hc⟩ := step_faults_or_completes h
  · exact nomatch ht
  · by_cases hn : n = .hlt
    · exact State.fetches_of_fetch hr (hn ▸ hc.fetched)
    · rw [hc.run_of_ne_hlt hn, hr] at ht
      exact nomatch ht

/-- Settles O38: HLT alone ends a step HALTED, and a step that ends RUNNING leaves a state in which a step is taken. -/
theorem runHaltsOnlyByHlt : Obligations.RunHaltsOnlyByHlt := by
  intro s t h
  refine ⟨⟨fetches_hlt_of_step_halted h, fun hhlt => ?_⟩, exists_step_of_running⟩
  exact run_of_exec_hlt ((step_of_fetches hhlt).symm.trans h)

end Sys2Proof.Machine
end

section
/-! PROOFS. NOP, HLT, LDI and PRN (41_control_io.md): the instruction each opcode byte spells, the whole next state each
answers, and the decimal line the host makes of an output byte. -/

namespace Sys2Proof.Machine

/-! ### A handler that faults -/

/-- A handler's fault leaves the state it began in, with the run state and the fault record alone written (R92). -/
theorem State.conclude_error_eq_faultedBy (s : State) (k : Mnemonic) (f : FaultKind) :
    s.conclude k (.error f) = .next (s.faultedBy k f) := rfl

/-! ### NOP and HLT -/

theorem exec_nop (s : State) : exec .nop s = .next { s with pc := s.pc + 1 } :=
  s.conclude_sequential s rfl Mnemonic.noConfusion

/-- Settles O1: the default map's byte of NOP decodes to it, and the loop's advance is by no operand and the opcode. -/
theorem nopOnlyAdvancesPc : Obligations.NopOnlyAdvancesPc :=
  ⟨decodeWindow_byteOf conventionalMap .nop, rfl, exec_nop⟩

theorem exec_hlt (s : State) : exec .hlt s = .next { s with pc := s.pc + 1, run := .halted } :=
  s.conclude_hlt s

/-- A window that does not fit is never fetched, so no instruction executes there (R58). -/
theorem run_of_step_of_window_past_end {s t : State} (hpc : 255 < s.pc + 2) (h : step s = .next t) :
    t.run = .faulted := by
  obtain ⟨-, ⟨r, -, rfl⟩ | ⟨i, hfetch, -⟩⟩ := step_cases h
  · exact s.enterFaulted_run r
  · have hfits : s.pc + 2 ≤ 255 := (State.fetch_eq_ok.mp hfetch).1
    omega

/-- Settles O2: HLT completes into HALTED; at 254 and 255 the fetch faults first; and a step needs a RUNNING state. -/
theorem hltHaltsPastItself : Obligations.HltHaltsPastItself := by
  refine ⟨decodeWindow_byteOf conventionalMap .hlt, rfl, exec_hlt, ?_, ?_⟩
  · intro s t hpc h
    exact run_of_step_of_window_past_end (by omega) h
  · intro s t hhalted h
    have hrunning : s.run = .running := (step_cases h).1
    exact RunState.noConfusion (hhalted.symm.trans hrunning)

/-! ### LDI -/

theorem exec_ldi_ok (s : State) {a : Byte} {i : Fin 8} (ha : a.toNat = i) (b : Byte) :
    exec (.ldi a b) s = .next { s with regs := s.regs.set i b, pc := s.pc + 3 } := by
  simp only [exec, execLdi, checkReg_ok ha]
  exact s.conclude_sequential (s.setReg i b) rfl Mnemonic.noConfusion

theorem exec_ldi_error (s : State) {a : Byte} (ha : 7 < a.toNat) (b : Byte) :
    exec (.ldi a b) s = .next (s.faultedBy .ldi (.registerIndex a)) := by
  simp only [exec, execLdi, checkReg_error ha]
  exact s.conclude_error_eq_faultedBy .ldi _

/-- Settles O3: `CheckReg` answers the register that LDI writes, or raises the fault. -/
theorem ldiLoadsImmediate : Obligations.LdiLoadsImmediate :=
  ⟨fun a b => ⟨decodeWindow_byteOf conventionalMap .ldi a b, rfl⟩,
    fun s _ b => ⟨fun _ ha => exec_ldi_ok s ha b, fun ha => exec_ldi_error s ha b⟩⟩

/-! ### PRN -/

theorem exec_prn_ok (s : State) {a : Byte} {i : Fin 8} (ha : a.toNat = i) :
    exec (.prn a) s = .next { s with output := s.output ++ [s.regs[i]], pc := s.pc + 2 } := by
  simp only [exec, execPrn, s.readOperand_ok ha]
  exact s.conclude_sequential (s.emit (s.reg i)) rfl Mnemonic.noConfusion

theorem exec_prn_error (s : State) {a : Byte} (ha : 7 < a.toNat) :
    exec (.prn a) s = .next (s.faultedBy .prn (.registerIndex a)) := by
  simp only [exec, execPrn, s.readOperand_error ha]
  exact s.conclude_error_eq_faultedBy .prn _

/-! ### The lines of the output -/

theorem renderOutput_append_singleton (out : List Byte) (v : Byte) :
    renderOutput (out ++ [v]) = renderOutput out ++ [decimal v.toNat] := List.map_append

/-- `Char.isDigit` as the order on characters says it. -/
theorem isDigit_iff_between {c : Char} : c.isDigit = true ↔ '0' ≤ c ∧ c ≤ '9' := by
  simp [Char.isDigit, Char.le_def]

/-- Settles O4: PRN emits what `CheckReg` lets it read, and the line of a byte is its decimal numeral. -/
theorem prnEmitsRegister : Obligations.PrnEmitsRegister := by
  refine ⟨decodeWindow_byteOf conventionalMap .prn, fun _ => rfl,
    fun s _ => ⟨fun _ ha => exec_prn_ok s ha, fun ha => exec_prn_error s ha⟩, rfl, fun out v => ?_⟩
  have hv : v.toNat < 1000 := by omega
  exact ⟨decimal v.toNat, renderOutput_append_singleton out v, decimal_ne_nil _,
    fun c hc => isDigit_iff_between.mp (decimal_isDigit hv c hc), decimal_no_leading_zero hv, decimalValue_decimal hv⟩

end Sys2Proof.Machine
end

section
/-! PROOFS. The ALU (42_alu.md): the whole next state of each of its ten instructions, the faults they raise and the
order of their checks. The two-operand forms are said once, for `aluBinary` under either group of instructions. -/

namespace Sys2Proof.Machine

/-! ### The two-operand form (R70) -/

/-- R70 of the instruction `n` with operand bytes `a` and `b`: it writes `f` of x[a] and x[b] to x[a] and goes past its
3 bytes, or raises for the first index above 7, in the order of the checks. -/
def State.ComputesBinary (s : State) (n : Instr) (a b : Byte) (f : Byte → Byte → Byte) : Prop :=
  (∀ i j : Fin 8, a.toNat = i → b.toNat = j →
    exec n s = .next { s with regs := s.regs.set i (f s.regs[i] s.regs[j]), pc := s.pc + 3 }) ∧
  (7 < a.toNat → exec n s = .next (s.faultedBy n.mnemonic (.registerIndex a))) ∧
  (a.toNat ≤ 7 → 7 < b.toNat → exec n s = .next (s.faultedBy n.mnemonic (.registerIndex b)))

theorem Mnemonic.sequential_of_two_operands {k : Mnemonic} :
    k.operands = 2 → k.transfersControl = false ∧ k ≠ .hlt := by
  cases k <;> decide

/-- A handler with two operand bytes that answers `t` ends its step 3 bytes on. -/
theorem State.conclude_of_two_operands (s t : State) {k : Mnemonic} (hk : k.operands = 2) :
    s.conclude k (.ok t) = .next { t with pc := t.pc + 3 } := by
  obtain ⟨hseq, hhlt⟩ := Mnemonic.sequential_of_two_operands hk
  rw [s.conclude_sequential t hseq hhlt, hk]

theorem State.computesBinary_of_exec_eq {s : State} {n : Instr} {a b : Byte} {f : Byte → Byte → Byte}
    (hn : n.mnemonic.operands = 2) (h : exec n s = s.conclude n.mnemonic (aluBinary f a b s)) :
    s.ComputesBinary n a b f := by
  refine ⟨fun i j ha hb => ?_, fun ha => ?_, fun ha hb => ?_⟩
  · rw [h, aluBinary_ok f s ha hb]
    exact s.conclude_of_two_operands _ hn
  · rw [h, aluBinary_error_first f s ha, State.conclude_error_eq_faultedBy]
  · rw [h, aluBinary_error_second f s ha hb, State.conclude_error_eq_faultedBy]

theorem BinaryAlu.computesBinary {n : Instr} {a b : Byte} {f : Byte → Byte → Byte} (h : BinaryAlu n a b f) (s : State) :
    s.ComputesBinary n a b f :=
  State.computesBinary_of_exec_eq (by cases h <;> rfl) (by cases h <;> rfl)

theorem ExtendedBinaryAlu.exec_eq {n : Instr} {a b : Byte} {f : Byte → Byte → Byte} (h : ExtendedBinaryAlu n a b f)
    (s : State) : exec n s = s.conclude n.mnemonic (extendedAlu s (aluBinary f a b s)) := by
  cases h <;> rfl

theorem ExtendedBinaryAlu.computesBinary {n : Instr} {a b : Byte} {f : Byte → Byte → Byte}
    (h : ExtendedBinaryAlu n a b f) {s : State} (hm : s.params.extAlu = .implemented) : s.ComputesBinary n a b f :=
  State.computesBinary_of_exec_eq (by cases h <;> rfl) (by rw [h.exec_eq, extendedAlu_implemented hm])

/-! ### ADD, SUB, MUL -/

/-- Settles O5: ADD is the two-operand form with `aluAdd`. -/
theorem addWritesSumModulo256 : Obligations.AddWritesSumModulo256 :=
  ⟨fun a b => ⟨decodeWindow_byteOf conventionalMap .add a b, rfl⟩, fun s a b => (BinaryAlu.add a b).computesBinary s⟩

/-- Settles O6: SUB is the two-operand form with `aluSub`. -/
theorem subWritesDifferenceModulo256 : Obligations.SubWritesDifferenceModulo256 :=
  ⟨fun a b => ⟨decodeWindow_byteOf conventionalMap .sub a b, rfl⟩, fun s a b => (BinaryAlu.sub a b).computesBinary s⟩

/-- Settles O7: MUL is the two-operand form with `aluMul`. -/
theorem mulWritesLowByteOfProduct : Obligations.MulWritesLowByteOfProduct :=
  ⟨fun a b => ⟨decodeWindow_byteOf conventionalMap .mul a b, rfl⟩, fun s a b => (BinaryAlu.mul a b).computesBinary s⟩

/-! ### CMP -/

theorem checkReg_ok_of_le {a : Byte} (ha : a.toNat ≤ 7) : checkReg a = .ok ⟨a.toNat, Nat.lt_succ_of_le ha⟩ :=
  checkReg_ok rfl

theorem exec_cmp_error_first (s : State) {a : Byte} (ha : 7 < a.toNat) (b : Byte) :
    exec (.cmp a b) s = .next (s.faultedBy .cmp (.registerIndex a)) := by
  simp only [exec, execCmp, checkReg_error ha]
  exact s.conclude_error_eq_faultedBy .cmp _

theorem exec_cmp_error_second (s : State) {a b : Byte} (ha : a.toNat ≤ 7) (hb : 7 < b.toNat) :
    exec (.cmp a b) s = .next (s.faultedBy .cmp (.registerIndex b)) := by
  simp only [exec, execCmp, checkReg_ok_of_le ha, checkReg_error hb]
  exact s.conclude_error_eq_faultedBy .cmp _

/-- Settles O8: FL becomes `compareFlag` of the two registers, which is 0x01 or 0x00. -/
theorem cmpWritesWholeFlagByte : Obligations.CmpWritesWholeFlagByte := by
  refine ⟨fun a b => ⟨decodeWindow_byteOf conventionalMap .cmp a b, rfl⟩, fun s a b =>
    ⟨fun i j ha hb heq => ?_, fun i j ha hb hne => ?_, fun ha => exec_cmp_error_first s ha b, exec_cmp_error_second s⟩⟩
  · have hflag : compareFlag (s.reg i) (s.reg j) = 0x01 := if_pos heq
    rw [exec_cmp_ok s ha hb, hflag]
  · have hflag : compareFlag (s.reg i) (s.reg j) = 0x00 := compareFlag_of_ne hne
    rw [exec_cmp_ok s ha hb, hflag]

/-! ### MOD -/

theorem exec_mod_ok {s : State} (hm : s.params.extAlu = .implemented) {a b : Byte} {i j : Fin 8} (ha : a.toNat = i)
    (hb : b.toNat = j) (h0 : s.reg j ≠ 0) :
    exec (.mod a b) s = .next { s with regs := s.regs.set i (aluMod (s.reg i) (s.reg j)), pc := s.pc + 3 } := by
  simp only [exec, execMod, extendedAlu_implemented hm, checkReg_ok ha, checkReg_ok hb, bind, Except.bind, if_neg h0]
  exact s.conclude_of_two_operands (s.setReg i (aluMod (s.reg i) (s.reg j))) rfl

theorem exec_mod_divideByZero {s : State} (hm : s.params.extAlu = .implemented) {a b : Byte} {j : Fin 8}
    (ha : a.toNat ≤ 7) (hb : b.toNat = j) (h0 : s.reg j = 0) :
    exec (.mod a b) s = .next (s.faultedBy .mod .divideByZero) := by
  simp only [exec, execMod, extendedAlu_implemented hm, checkReg_ok_of_le ha, checkReg_ok hb, bind, Except.bind,
    if_pos h0]
  exact s.conclude_error_eq_faultedBy .mod _

theorem exec_mod_error_first {s : State} (hm : s.params.extAlu = .implemented) {a : Byte} (ha : 7 < a.toNat) (b : Byte) :
    exec (.mod a b) s = .next (s.faultedBy .mod (.registerIndex a)) := by
  simp only [exec, execMod, extendedAlu_implemented hm, checkReg_error ha]
  exact s.conclude_error_eq_faultedBy .mod _

theorem exec_mod_error_second {s : State} (hm : s.params.extAlu = .implemented) {a b : Byte} (ha : a.toNat ≤ 7)
    (hb : 7 < b.toNat) : exec (.mod a b) s = .next (s.faultedBy .mod (.registerIndex b)) := by
  simp only [exec, execMod, extendedAlu_implemented hm, checkReg_ok_of_le ha, checkReg_error hb]
  exact s.conclude_error_eq_faultedBy .mod _

/-- Settles O9: both register checks pass before the divisor is looked at. -/
theorem modWritesRemainderOrDivideFaults : Obligations.ModWritesRemainderOrDivideFaults :=
  ⟨fun a b => ⟨decodeWindow_byteOf conventionalMap .mod a b, rfl⟩, fun _ _ b hm =>
    ⟨fun _ _ ha hb h0 => exec_mod_ok hm ha hb h0, fun _ ha hb h0 => exec_mod_divideByZero hm ha hb h0,
      fun ha => exec_mod_error_first hm ha b, exec_mod_error_second hm⟩⟩

/-! ### SHL, SHR, XOR, OR -/

/-- The value of R82 for SHL: a left shift multiplies by a power of 2. -/
theorem aluShl_eq_mul_two_pow : aluShl = fun x y => BitVec.ofNat 8 (x.toNat * 2 ^ y.toNat % 256) := by
  funext x y
  rw [aluShl, Nat.shiftLeft_eq]

/-- The value of R82 for SHR: a logical right shift divides by a power of 2. -/
theorem aluShr_eq_div_two_pow : aluShr = fun x y => BitVec.ofNat 8 (x.toNat / 2 ^ y.toNat) := by
  funext x y
  rw [aluShr, Nat.shiftRight_eq_div_pow]

/-- Settles O10: SHL is the two-operand form with `aluShl`, which is a multiplication modulo 256. -/
theorem shlShiftsLeftByWholeByte : Obligations.ShlShiftsLeftByWholeByte := by
  refine ⟨fun a b => ⟨decodeWindow_byteOf conventionalMap .shl a b, rfl⟩, fun s a b hm => ?_⟩
  have h : s.ComputesBinary (.shl a b) a b aluShl := (ExtendedBinaryAlu.shl a b).computesBinary hm
  rwa [aluShl_eq_mul_two_pow] at h

/-- Settles O11: SHR is the two-operand form with `aluShr`, which is a division rounded down. -/
theorem shrShiftsRightByWholeByte : Obligations.ShrShiftsRightByWholeByte := by
  refine ⟨fun a b => ⟨decodeWindow_byteOf conventionalMap .shr a b, rfl⟩, fun s a b hm => ?_⟩
  have h : s.ComputesBinary (.shr a b) a b aluShr := (ExtendedBinaryAlu.shr a b).computesBinary hm
  rwa [aluShr_eq_div_two_pow] at h

/-- Settles O12: XOR is the two-operand form with `aluXor`. -/
theorem xorWritesExclusiveOr : Obligations.XorWritesExclusiveOr :=
  ⟨fun a b => ⟨decodeWindow_byteOf conventionalMap .xor a b, rfl⟩,
    fun _ a b hm => (ExtendedBinaryAlu.xor a b).computesBinary hm⟩

/-- Settles O13: OR is the two-operand form with `aluOr`. -/
theorem orWritesInclusiveOr : Obligations.OrWritesInclusiveOr :=
  ⟨fun a b => ⟨decodeWindow_byteOf conventionalMap .or a b, rfl⟩,
    fun _ a b hm => (ExtendedBinaryAlu.or a b).computesBinary hm⟩

/-! ### NOT -/

theorem exec_not_ok {s : State} (hm : s.params.extAlu = .implemented) {a : Byte} {i : Fin 8} (ha : a.toNat = i) :
    exec (.not a) s = .next { s with regs := s.regs.set i (aluNot (s.reg i)), pc := s.pc + 2 } := by
  simp only [exec, execNot, extendedAlu_implemented hm, checkReg_ok ha]
  exact s.conclude_sequential (s.setReg i (aluNot (s.reg i))) rfl Mnemonic.noConfusion

theorem exec_not_error {s : State} (hm : s.params.extAlu = .implemented) {a : Byte} (ha : 7 < a.toNat) :
    exec (.not a) s = .next (s.faultedBy .not (.registerIndex a)) := by
  simp only [exec, execNot, extendedAlu_implemented hm, checkReg_error ha]
  exact s.conclude_error_eq_faultedBy .not _

/-- Settles O14: NOT writes `aluNot` of the register that `CheckReg` answers, or raises the fault. -/
theorem notWritesComplement : Obligations.NotWritesComplement :=
  ⟨fun a b => decodeWindow_byteOf conventionalMap .not a b, fun _ => rfl,
    fun _ _ hm => ⟨fun _ ha => exec_not_ok hm ha, fun ha => exec_not_error hm ha⟩⟩

/-! ### `EXT_ALU_MODE` = fault -/

/-- `EXT_ALU_MODE` gates the whole handler of each of the six instructions (R81). -/
theorem IsExtendedAlu.exec_eq_gated {n : Instr} (h : IsExtendedAlu n) (s : State) :
    ∃ r, exec n s = s.conclude n.mnemonic (extendedAlu s r) := by
  cases h with
  | binary h => exact ⟨_, h.exec_eq s⟩
  | mod a b => exact ⟨_, rfl⟩
  | not a => exact ⟨_, rfl⟩

theorem IsExtendedAlu.exec_of_unsupported {n : Instr} (h : IsExtendedAlu n) {s : State}
    (hm : s.params.extAlu = .fault) : exec n s = .next (s.faultedBy n.mnemonic .aluUnsupported) := by
  obtain ⟨r, hr⟩ := h.exec_eq_gated s
  rw [hr, extendedAlu_fault hm, State.conclude_error_eq_faultedBy]

/-- Settles O15: the gate of the mode answers before the handler looks at an operand. -/
theorem extendedAluFaultsWhenUnsupported : Obligations.ExtendedAluFaultsWhenUnsupported := fun _ hm =>
  ⟨fun a b => (IsExtendedAlu.mod a b).exec_of_unsupported hm,
    fun a b => (IsExtendedAlu.binary (.shl a b)).exec_of_unsupported hm,
    fun a b => (IsExtendedAlu.binary (.shr a b)).exec_of_unsupported hm,
    fun a b => (IsExtendedAlu.binary (.xor a b)).exec_of_unsupported hm,
    fun a b => (IsExtendedAlu.binary (.or a b)).exec_of_unsupported hm,
    fun a => (IsExtendedAlu.not a).exec_of_unsupported hm⟩

end Sys2Proof.Machine
end

section
/-! PROOFS. PUSH and POP (43_stack.md): the instruction each opcode byte spells, the whole next state each answers, and
what a PUSH followed by a POP leaves. -/

namespace Sys2Proof.Machine

/-! ### PUSH -/

/-- `s` after a PUSH of the byte `v` (R84): SP is decremented, `v` is stored at the new SP, and pc is past the two bytes
of the instruction. -/
def State.afterPush (s : State) (v : Byte) : State :=
  { s with regs := s.regs.set 7 (s.sp - 1), mem := s.mem.write (s.sp - 1).toNat v, pc := s.pc + 2 }

@[simp] theorem State.afterPush_regs (s : State) (v : Byte) : (s.afterPush v).regs = s.regs.set 7 (s.sp - 1) := rfl

@[simp] theorem State.sp_afterPush (s : State) (v : Byte) : (s.afterPush v).sp = s.sp - 1 :=
  s.sp_setReg_sp (s.sp - 1)

theorem State.load_sp_afterPush {s : State} (hwf : s.mem.wf = true) (v : Byte) :
    (s.afterPush v).load (s.afterPush v).sp = v := by
  rw [State.sp_afterPush]
  exact Memory.read_write_self hwf (s.sp - 1).toNat v

theorem exec_push_ok {s : State} {a : Byte} {i : Fin 8} (ha : a.toNat = i) (hsp : s.sp ≠ 0) :
    exec (.push a) s = .next (s.afterPush (if i = 7 then s.sp - 1 else s.regs[i])) := by
  simp only [exec, execPush, checkReg_ok ha, State.decrementSp_ok hsp, bind, Except.bind, State.reg_setReg_sp,
    State.storeAtSp, State.sp_setReg_sp]
  exact s.conclude_sequential (k := .push) ((s.setReg spIndex (s.sp - 1)).store (s.sp - 1) _) rfl Mnemonic.noConfusion

theorem exec_push_registerIndex (s : State) {a : Byte} (ha : 7 < a.toNat) :
    exec (.push a) s = .next (s.faultedBy .push (.registerIndex a)) := by
  simp only [exec, execPush, checkReg_error ha]
  exact s.conclude_error_eq_faultedBy .push _

theorem exec_push_stackBounds {s : State} {a : Byte} (ha : a.toNat ≤ 7) (hsp : s.sp = 0) :
    exec (.push a) s = .next (s.faultedBy .push (.stackBounds 0)) := by
  simp only [exec, execPush, checkReg_ok_of_le ha, State.decrementSp_error hsp]
  exact s.conclude_error_eq_faultedBy .push _

/-- Settles O16: the index is checked first, then SP is decremented or found to be 0, then the register is read and
stored. -/
theorem pushDecrementsThenStores : Obligations.PushDecrementsThenStores :=
  ⟨decodeWindow_byteOf conventionalMap .push, fun _ => rfl, fun s _ =>
    ⟨fun _ ha hsp => exec_push_ok ha hsp, exec_push_registerIndex s, exec_push_stackBounds⟩⟩

/-! ### POP -/

/-- POP once the index names a register: the byte at SP is written there, and SP as that write leaves it is incremented
(R85). -/
theorem exec_pop_of_checkReg (s : State) {a : Byte} {i : Fin 8} (ha : a.toNat = i) :
    exec (.pop a) s = s.conclude .pop (s.setReg i (s.load s.sp)).incrementSp := by
  simp only [exec, execPop, checkReg_ok ha]; rfl

/-- `v` is the popped byte, and `p` is SP once `v` is written. -/
theorem exec_pop_ok {s : State} {a v p : Byte} {i : Fin 8} (ha : a.toNat = i) (hv : s.load s.sp = v)
    (hp : (s.setReg i v).sp = p) (hne : p ≠ 255) :
    exec (.pop a) s = .next { s with regs := (s.regs.set i v).set 7 (p + 1), pc := s.pc + 2 } := by
  subst hv hp
  rw [exec_pop_of_checkReg s ha, State.incrementSp_ok hne]
  exact s.conclude_sequential _ rfl Mnemonic.noConfusion

theorem exec_pop_registerIndex (s : State) {a : Byte} (ha : 7 < a.toNat) :
    exec (.pop a) s = .next (s.faultedBy .pop (.registerIndex a)) := by
  simp only [exec, execPop, checkReg_error ha]
  exact s.conclude_error_eq_faultedBy .pop _

theorem exec_pop_stackBounds {s : State} {a : Byte} {i : Fin 8} (ha : a.toNat = i)
    (hsp : (s.setReg i (s.load s.sp)).sp = 255) : exec (.pop a) s = .next (s.faultedBy .pop (.stackBounds 255)) := by
  rw [exec_pop_of_checkReg s ha, State.incrementSp_error hsp, State.conclude_error_eq_faultedBy]

theorem State.sp_setReg_of_ne (s : State) {i : Fin 8} (hi : i ≠ 7) (v : Byte) : (s.setReg i v).sp = s.sp :=
  (s.sp_setReg i v).trans (if_neg hi)

/-- Below R7 the register's write leaves SP. -/
theorem exec_pop_of_ne {s : State} {a v : Byte} {i : Fin 8} (ha : a.toNat = i) (hi : i ≠ 7) (hv : s.load s.sp = v)
    (hsp : s.sp ≠ 255) :
    exec (.pop a) s = .next { s with regs := (s.regs.set i v).set 7 (s.sp + 1), pc := s.pc + 2 } :=
  exec_pop_ok ha hv (s.sp_setReg_of_ne hi v) hsp

/-- POP R7 increments the popped byte itself (R85). -/
theorem exec_pop_sp {s : State} {a v : Byte} (ha : a.toNat = 7) (hv : s.load s.sp = v) (hne : v ≠ 255) :
    exec (.pop a) s = .next { s with regs := s.regs.set 7 (v + 1), pc := s.pc + 2 } := by
  have hregs : (s.regs.set spIndex v).set 7 (v + 1) = s.regs.set 7 (v + 1) := Vector.set_set ..
  rw [exec_pop_ok (i := spIndex) ha hv (s.sp_setReg_sp v) hne, hregs]

/-- Settles O17: the popped byte is written first, so SP at the check is SP as it was, or for POP R7 the popped byte. -/
theorem popLoadsThenIncrements : Obligations.PopLoadsThenIncrements := by
  refine ⟨decodeWindow_byteOf conventionalMap .pop, fun _ => rfl, fun s a =>
    ⟨fun i ha hi => exec_pop_of_ne ha hi rfl, fun ha => exec_pop_sp ha rfl, exec_pop_registerIndex s,
      fun ha hsp => ?_, fun ha hv => exec_pop_stackBounds (i := spIndex) ha ((s.sp_setReg_sp _).trans hv)⟩⟩
  have hi : (⟨a.toNat, Nat.lt_succ_of_lt ha⟩ : Fin 8) ≠ 7 := Fin.ne_of_val_ne ha.ne
  exact exec_pop_stackBounds rfl ((s.sp_setReg_of_ne hi _).trans hsp)

/-! ### PUSH, then POP -/

/-- A decrement that does not wrap leaves room for the increment that undoes it (R83). -/
theorem sub_one_ne_255 {x : Byte} (h : x ≠ 0) : x - 1 ≠ 255 := by bv_omega

/-- Moving SP down and back up leaves only what was written to another register between. -/
theorem State.regs_set_sp_restored (s : State) {j : Fin 8} (hj : j ≠ 7) (v : Byte) :
    ((s.regs.set 7 (s.sp - 1)).set j v).set 7 (s.sp - 1 + 1) = s.regs.set j v := by
  have hj' : (j : Nat) ≠ 7 := fun h => hj (Fin.ext h)
  rw [BitVec.sub_add_cancel, State.sp_eq, Vector.set_comm _ _ hj', Vector.set_set, Vector.set_getElem_self]

/-- Settles O49: the POP reads the byte the PUSH wrote, since both use the decremented SP, and its increment undoes the
decrement, or for POP R7 is applied to that byte. -/
theorem pushThenPopRestoresStackPointer : Obligations.PushThenPopRestoresStackPointer := by
  intro s a c i j hwf ha hc hsp stored
  have hload : (s.afterPush stored).load (s.afterPush stored).sp = stored := State.load_sp_afterPush hwf stored
  have hsp255 : (s.afterPush stored).sp ≠ 255 := s.sp_afterPush stored ▸ sub_one_ne_255 hsp
  refine ⟨s.afterPush stored, exec_push_ok ha hsp, s.sp_afterPush stored ▸ hload, fun hj => ?_, ?_⟩
  · rw [exec_pop_of_ne hc hj hload hsp255, State.sp_afterPush, State.afterPush_regs, s.regs_set_sp_restored hj]
    rfl
  · rintro rfl hne
    rw [exec_pop_sp hc hload hne, State.afterPush_regs, Vector.set_set]
    rfl

end Sys2Proof.Machine
end

section
/-! PROOFS. CALL, RET, JMP, JEQ and JNE (44_control_transfer.md): the instruction each opcode byte spells, the whole next
state each answers, and that a RET undoes the push of a CALL. -/

namespace Sys2Proof.Machine

/-! ### JMP, JEQ, JNE: the branch through a register -/

section
variable (s : State) {k : Mnemonic} (hk : k.transfersControl = true)
include hk

theorem State.conclude_branch_taken {a : Byte} {i : Fin 8} (ha : a.toNat = i) :
    s.conclude k (s.branch true a) = .next { s with pc := (s.regs[i]).toNat } := by
  rw [s.branch_taken_ok ha, s.conclude_transfer _ hk]
  rfl

theorem State.conclude_branch_not_taken (a : Byte) :
    s.conclude k (s.branch false a) = .next { s with pc := s.pc + 2 } :=
  s.conclude_transfer s.fallThrough hk

end

theorem State.conclude_branch_registerIndex (s : State) (k : Mnemonic) {a : Byte} (ha : 7 < a.toNat) :
    s.conclude k (s.branch true a) = .next (s.faultedBy k (.registerIndex a)) := by
  rw [s.branch_taken_error ha, State.conclude_error_eq_faultedBy]

/-- A JMP is a branch that is always taken. -/
theorem exec_jmp (s : State) (a : Byte) : exec (.jmp a) s = s.conclude .jmp (s.branch true a) := rfl

theorem exec_jeq {s : State} {e : Bool} (he : s.fl.getLsbD 0 = e) (a : Byte) :
    exec (.jeq a) s = s.conclude .jeq (s.branch e a) :=
  he ▸ rfl

theorem exec_jne {s : State} {e : Bool} (he : s.fl.getLsbD 0 = e) (a : Byte) :
    exec (.jne a) s = s.conclude .jne (s.branch (!e) a) :=
  he ▸ rfl

/-- Settles O20: a branch that is always taken goes to its register, or raises the fault. -/
theorem jmpGoesToRegister : Obligations.JmpGoesToRegister :=
  ⟨decodeWindow_byteOf conventionalMap .jmp, fun _ => rfl, fun s a =>
    ⟨fun _ ha => (exec_jmp s a).trans (s.conclude_branch_taken rfl ha),
      fun ha => (exec_jmp s a).trans (s.conclude_branch_registerIndex .jmp ha)⟩⟩

/-- Settles O21: JEQ is the branch taken when the equal bit is 1, and its byte has one operand in every admissible
map. -/
theorem jeqBranchesWhenEqualBitSet : Obligations.JeqBranchesWhenEqualBitSet :=
  ⟨decodeWindow_byteOf conventionalMap .jeq, fun _ => rfl, fun m => operandCount_byteOf m .jeq, fun s a =>
    ⟨fun _ he ha => (exec_jeq he a).trans (s.conclude_branch_taken rfl ha),
      fun he => (exec_jeq he a).trans (s.conclude_branch_not_taken rfl a),
      fun he ha => (exec_jeq he a).trans (s.conclude_branch_registerIndex .jeq ha)⟩⟩

/-- Settles O22: JNE is the branch taken when the equal bit is 0, and its byte has one operand in every admissible
map. -/
theorem jneBranchesWhenEqualBitClear : Obligations.JneBranchesWhenEqualBitClear :=
  ⟨decodeWindow_byteOf conventionalMap .jne, fun _ => rfl, fun m => operandCount_byteOf m .jne, fun s a =>
    ⟨fun _ he ha => (exec_jne he a).trans (s.conclude_branch_taken rfl ha),
      fun he => (exec_jne he a).trans (s.conclude_branch_not_taken rfl a),
      fun he ha => (exec_jne he a).trans (s.conclude_branch_registerIndex .jne ha)⟩⟩

/-! ### RET -/

theorem exec_ret_ok {s : State} (hsp : s.sp ≠ 255) :
    exec .ret s = .next { s with regs := s.regs.set 7 (s.sp + 1), pc := (s.load s.sp).toNat } := by
  simp only [exec, execRet, State.incrementSp_ok hsp]
  exact s.conclude_transfer ((s.setReg spIndex (s.sp + 1)).jump (s.load s.sp)) rfl

theorem exec_ret_stackBounds {s : State} (hsp : s.sp = 255) :
    exec .ret s = .next (s.faultedBy .ret (.stackBounds 255)) := by
  simp only [exec, execRet, State.incrementSp_error hsp]
  exact s.conclude_error_eq_faultedBy .ret _

/-- Settles O19: SP is incremented or found to be 255 before the byte it named is taken as the pc. -/
theorem retPopsIntoPc : Obligations.RetPopsIntoPc :=
  ⟨decodeWindow_byteOf conventionalMap .ret, rfl, fun _ => ⟨exec_ret_ok, exec_ret_stackBounds⟩⟩

/-! ### CALL -/

/-- `s` after the push of a CALL (R86): SP is decremented and the return address is stored at the new SP. -/
def State.pushReturn (s : State) : State := (s.setReg spIndex (s.sp - 1)).store (s.sp - 1) s.returnAddress

@[simp] theorem State.sp_pushReturn (s : State) : s.pushReturn.sp = s.sp - 1 := s.sp_setReg_sp (s.sp - 1)

/-- CALL reads its register after the decrement, so R7 gives the address of the return address. -/
theorem State.reg_pushReturn (s : State) (i : Fin 8) :
    s.pushReturn.reg i = if i = 7 then s.sp - 1 else s.regs[i] :=
  s.reg_setReg_sp i (s.sp - 1)

/-- A read after CALL's push finds the return address where that is, and elsewhere what was there before. -/
theorem State.load_pushReturn {s : State} (hwf : s.mem.wf = true) (a : Byte) :
    s.pushReturn.load a = if a = s.sp - 1 then s.returnAddress else s.load a := by
  by_cases ha : a = s.sp - 1
  · rw [if_pos ha, ha]
    exact Memory.read_write_self hwf _ _
  · rw [if_neg ha]
    exact Memory.read_write_of_ne hwf (mt BitVec.eq_of_toNat_eq ha) _

/-- CALL once it has pushed: the byte at its operand address names the register to go to. -/
theorem exec_call_of_sp {s : State} (hsp : s.sp ≠ 0) (a : Byte) :
    exec (.call a) s = s.conclude .call (s.pushReturn.branch true (s.pushReturn.load a)) := by
  simp only [exec, execCall, State.decrementSp_ok hsp, bind, Except.bind, State.storeAtSp, State.sp_setReg_sp]
  rfl

theorem exec_call_ok {s : State} {a : Byte} {i : Fin 8} (hsp : s.sp ≠ 0) (hi : (s.pushReturn.load a).toNat = i) :
    exec (.call a) s = .next (s.pushReturn.jump (s.pushReturn.reg i)) := by
  rw [exec_call_of_sp hsp, State.branch_taken_ok _ hi, s.conclude_transfer _ rfl]

theorem exec_call_registerIndex {s : State} {a : Byte} (hsp : s.sp ≠ 0) (hi : 7 < (s.pushReturn.load a).toNat) :
    exec (.call a) s = .next (s.faultedBy .call (.registerIndex (s.pushReturn.load a))) := by
  rw [exec_call_of_sp hsp, State.branch_taken_error _ hi, State.conclude_error_eq_faultedBy]

theorem exec_call_stackBounds {s : State} (hsp : s.sp = 0) (a : Byte) :
    exec (.call a) s = .next (s.faultedBy .call (.stackBounds 0)) := by
  simp only [exec, execCall, State.decrementSp_error hsp]
  exact s.conclude_error_eq_faultedBy .call _

/-- Settles O18: SP is checked first, then the index is read from the memory that holds the return address, then the
register is read after the decrement. -/
theorem callPushesThenJumpsIndirect : Obligations.CallPushesThenJumpsIndirect := by
  refine ⟨decodeWindow_byteOf conventionalMap .call, fun _ => rfl, fun s a hwf _ =>
    ⟨fun hsp => exec_call_stackBounds hsp a, fun index hsp hindex => ?_⟩⟩
  obtain rfl : index = s.pushReturn.load a := hindex.trans (State.load_pushReturn hwf a).symm
  refine ⟨fun i hi => ?_, exec_call_registerIndex hsp⟩
  rw [exec_call_ok hsp hi, State.reg_pushReturn]
  rfl

/-! ### CALL, then RET -/

/-- A CALL that does not fault has pushed its return address and then jumped. -/
theorem exec_call_completes {s t : State} {a : Byte} (h : exec (.call a) s = .next t) (hrun : t.run ≠ .faulted) :
    s.sp ≠ 0 ∧ ∃ target, t = s.pushReturn.jump target := by
  by_cases hsp : s.sp = 0
  · obtain rfl := Host.Outcome.next.inj ((exec_call_stackBounds hsp a).symm.trans h)
    exact absurd rfl hrun
  · obtain ⟨i, hi, -⟩ | ⟨hi, -⟩ := checkReg_cases (s.pushReturn.load a)
    · exact ⟨hsp, _, (Host.Outcome.next.inj ((exec_call_ok hsp hi).symm.trans h)).symm⟩
    · obtain rfl := Host.Outcome.next.inj ((exec_call_registerIndex hsp hi).symm.trans h)
      exact absurd rfl hrun

/-- The increment of a pop undoes the decrement of CALL's push. -/
theorem State.regs_pushReturn_restored (s : State) : s.pushReturn.regs.set 7 (s.sp - 1 + 1) = s.regs := by
  rw [BitVec.sub_add_cancel, State.sp_eq]
  exact (Vector.set_set ..).trans (Vector.set_getElem_self _)

/-- A RET wherever CALL has gone: it pops the return address and restores SP. -/
theorem exec_ret_pushReturn_jump {s : State} (hwf : s.mem.wf = true) (hsp : s.sp ≠ 0) (target : Byte) :
    exec .ret (s.pushReturn.jump target) =
      .next { s with mem := s.pushReturn.mem, pc := s.returnAddress.toNat } := by
  have hsp' : (s.pushReturn.jump target).sp = s.sp - 1 := s.sp_pushReturn
  have hload : (s.pushReturn.jump target).load (s.sp - 1) = s.returnAddress :=
    (State.load_pushReturn hwf _).trans (if_pos rfl)
  rw [exec_ret_ok (hsp' ▸ sub_one_ne_255 hsp), hsp', hload, State.jump_regs, State.regs_pushReturn_restored]
  rfl

/-- Settles O50: the RET pops the address that the CALL pushed, which is pc + 2 since that fits in a byte. -/
theorem callThenRetReturnsPastCall : Obligations.CallThenRetReturnsPastCall := by
  intro s t a hwf hpc _ hcall hrun
  obtain ⟨hsp, target, rfl⟩ := exec_call_completes hcall (by simp [hrun])
  rw [exec_ret_pushReturn_jump hwf hsp, State.returnAddress_toNat hpc, State.jump_mem]

end Sys2Proof.Machine
end

section
/-! PROOFS. The faults (60_exceptions.md): every way a step can fault, said once, what each fault kind's rule says of it,
the message of an unknown instruction, and the codes and statuses the host reads. -/

namespace Sys2Proof.Machine

/-! ### Every way a step can fault -/

/-- The record a faulting step from `s` leaves (R92, R93): the window does not fit, or its opcode is no mnemonic's, or
the handler of the instruction fetched raises. -/
inductive State.FaultsWith (s : State) : FaultRecord → Prop where
  | fetchBounds (hpc : 255 < s.pc + 2) : s.FaultsWith { kind := .fetchBounds, pc := s.pc, opcode := none }
  | unknownOpcode (hfits : s.pc + 2 ≤ 255) (hop : ∀ k, s.params.opcodes.byteOf k ≠ s.mem.read s.pc) :
      s.FaultsWith { kind := .unknownOpcode, pc := s.pc, opcode := some (s.mem.read s.pc) }
  | handler {n : Instr} {f : FaultKind} (hfetch : s.fetch = .ok n) (hraises : Raises s n f) :
      s.FaultsWith { kind := f, pc := s.pc, opcode := some (s.mem.read s.pc) }

theorem State.faultsWith_of_fetch_error {s : State} {r : FaultRecord} (h : s.fetch = .error r) : s.FaultsWith r := by
  obtain ⟨hpc, rfl⟩ | ⟨hfits, hop, rfl⟩ := State.fetch_eq_error h
  · exact .fetchBounds hpc
  · exact .unknownOpcode hfits hop

/-- An instruction that does not raise leaves the fault record, and does not enter FAULTED. -/
theorem exec_raises_or_keeps_record {n : Instr} {s t : State} (h : exec n s = .next t) :
    (∃ f, Raises s n f ∧ t = s.enterFaulted { kind := f, pc := s.pc, opcode := some (s.opcode n.mnemonic) })
    ∨ (t.fault = s.fault ∧ (s.run ≠ .faulted → t.run ≠ .faulted)) := by
  obtain ⟨u, hu, rfl⟩ | hf := exec_cases h
  · obtain ⟨-, hfault, -⟩ := hu.run_fault_params
    exact .inr ⟨by simp [hfault], fun hrun => hu.not_faulted hrun _ _⟩
  · exact .inl hf

/-- A step faults with one of those records, or leaves the record and does not enter FAULTED. -/
theorem step_faultsWith_or_keeps_record {s t : State} (h : step s = .next t) :
    (∃ r, s.FaultsWith r ∧ t = s.enterFaulted r) ∨ (t.fault = s.fault ∧ t.run ≠ .faulted) := by
  obtain ⟨hr, ⟨r, hfetch, rfl⟩ | ⟨n, hfetch, hexec⟩⟩ := step_cases h
  · exact .inl ⟨r, State.faultsWith_of_fetch_error hfetch, rfl⟩
  · obtain ⟨f, hf, rfl⟩ | ⟨hfault, hrun⟩ := exec_raises_or_keeps_record hexec
    · rw [State.opcode_of_fetch hfetch]
      exact .inl ⟨_, .handler hfetch hf, rfl⟩
    · exact .inr ⟨hfault, hrun (by simp [hr])⟩

/-- A record where there was none before is the record of this instruction's fault. -/
theorem raises_of_exec_records {n : Instr} {s t : State} {r : FaultRecord} (hs : s.fault = none)
    (h : exec n s = .next t) (ht : t.fault = some r) : Raises s n r.kind := by
  obtain ⟨f, hf, rfl⟩ | ⟨hfault, -⟩ := exec_raises_or_keeps_record h
  · cases ht; exact hf
  · simp [hfault, hs] at ht

/-- A record where there was none before is the record of this step's fault. -/
theorem faultsWith_of_step_records {s t : State} {r : FaultRecord} (hs : s.fault = none) (h : step s = .next t)
    (ht : t.fault = some r) : s.FaultsWith r := by
  obtain ⟨r', hr', rfl⟩ | ⟨hfault, -⟩ := step_faultsWith_or_keeps_record h
  · cases ht; exact hr'
  · simp [hfault, hs] at ht

theorem step_enterFaulted_ne_next (s : State) (r : FaultRecord) (u : State) : step (s.enterFaulted r) ≠ .next u :=
  fun h => RunState.noConfusion (noStepUnlessRunning.1 _ u h)

/-! ### What a faulting step leaves -/

/-- FetchBoundsFault is the one fault before the opcode byte is fetched; every other records that byte. -/
theorem State.FaultsWith.opcode {s : State} {r : FaultRecord} (h : s.FaultsWith r) :
    (r.kind = .fetchBounds → r.opcode = none) ∧ (r.kind ≠ .fetchBounds → r.opcode = some (s.mem.read s.pc)) := by
  cases h with
  | fetchBounds => exact ⟨fun _ => rfl, fun hne => absurd rfl hne⟩
  | unknownOpcode => exact ⟨FaultKind.noConfusion, fun _ => rfl⟩
  | handler _ hraises => exact ⟨fun he => absurd he hraises.ne_fetchBounds, fun _ => rfl⟩

theorem State.FaultsWith.pc {s : State} {r : FaultRecord} (h : s.FaultsWith r) : r.pc = s.pc := by
  cases h <;> rfl

/-- Settles O37: a step that ends FAULTED entered it from the state it began in, with one of the records of a fault. -/
theorem faultsArePreciseAndFinal : Obligations.FaultsArePreciseAndFinal := by
  intro s t h hrun
  obtain ⟨r, hr, rfl⟩ | ⟨-, hne⟩ := step_faultsWith_or_keeps_record h
  · exact ⟨⟨r, rfl, hr.pc, hr.opcode⟩, step_enterFaulted_ne_next s r⟩
  · exact absurd hrun hne

/-! ### FetchBoundsFault (R96) -/

theorem State.fetch_of_window_past_end {s : State} (hpc : 255 < s.pc + 2) :
    s.fetch = .error { kind := .fetchBounds, pc := s.pc, opcode := none } :=
  if_neg (mt State.windowFits_iff.mp (Nat.not_le.mpr hpc))

theorem State.FaultsWith.window_past_end {s : State} {r : FaultRecord} (h : s.FaultsWith r)
    (hk : r.kind = .fetchBounds) : 255 < s.pc + 2 := by
  cases h with
  | fetchBounds hpc => exact hpc
  | unknownOpcode => cases hk
  | handler _ hraises => exact absurd hk hraises.ne_fetchBounds

/-- Settles O35: the fetch looks at the bound first, and no handler raises FetchBoundsFault. -/
theorem fetchBoundsFaultExactlyPast253 : Obligations.FetchBoundsFaultExactlyPast253 :=
  ⟨fun _ hr hpc => step_of_fetch_error hr (State.fetch_of_window_past_end hpc),
    fun _ _ _ hs h ht hk => (faultsWith_of_step_records hs h ht).window_past_end hk⟩

/-! ### UnknownOpcode (R94) -/

theorem step_of_no_mnemonic {s : State} {op a b : Byte} (h : s.FetchesWindow op a b)
    (hop : ∀ k, s.params.opcodes.byteOf k ≠ op) :
    step s = .next (s.enterFaulted { kind := .unknownOpcode, pc := s.pc, opcode := some op }) :=
  step_of_fetch_error h.running (h.fetch_of_no_mnemonic hop)

/-- "unknown instruction `opcode` at address `PC`" (R94), with the blank after the opcode written apart. -/
def unknownInstructionText (opcodeText pcText : List Char) : List Char :=
  "unknown instruction ".toList ++ opcodeText ++ ' ' :: "at address ".toList ++ pcText

theorem faultMessage_enterFaulted_unknownOpcode (s : State) (pc : Nat) (op : Byte) :
    faultMessage (s.enterFaulted { kind := .unknownOpcode, pc := pc, opcode := some op }) =
      some (unknownInstructionText (decimal op.toNat) (decimal pc)) := rfl

theorem takeWhile_append_cons {p : Char → Bool} {c : Char} {l : List Char} (hl : ∀ x ∈ l, p x = true) (hc : p c = false)
    (rest : List Char) : (l ++ c :: rest).takeWhile p = l := by
  rw [List.takeWhile_append_of_pos hl, List.takeWhile_cons_of_neg (by simp [hc]), List.append_nil]

/-- Two parts that a fixed text keeps apart are read back in one way, when a character that the first part cannot hold
begins that text. -/
theorem parts_eq_of_separated {p : Char → Bool} {c : Char} (hc : p c = false) {before after l l' r r' : List Char}
    (hl : ∀ x ∈ l, p x = true) (hl' : ∀ x ∈ l', p x = true)
    (h : before ++ l ++ c :: after ++ r = before ++ l' ++ c :: after ++ r') : l = l' ∧ r = r' := by
  simp only [List.append_assoc, List.cons_append, List.append_cancel_left_eq] at h
  obtain rfl : l = l' := by
    rw [← takeWhile_append_cons hl hc (after ++ r), h, takeWhile_append_cons hl' hc]
  simpa using h

/-- The numerals are digits only, so the blank after the opcode's ends it, and the message determines both numbers. -/
theorem unknownInstructionText_decimal_inj {m m' n n' : Nat} (hm : m < 1000) (hm' : m' < 1000) (hn : n < 1000)
    (hn' : n' < 1000)
    (h : unknownInstructionText (decimal m) (decimal n) = unknownInstructionText (decimal m') (decimal n')) :
    m = m' ∧ n = n' := by
  have hblank : Char.isDigit ' ' = false := rfl
  obtain ⟨hfirst, hsecond⟩ := parts_eq_of_separated hblank (decimal_isDigit hm) (decimal_isDigit hm') h
  exact ⟨decimal_injective hm hm' hfirst, decimal_injective hn hn' hsecond⟩

theorem faultMessage_of_step_no_mnemonic {s s' : State} {op a b : Byte} (hwindow : s.FetchesWindow op a b)
    (hop : ∀ k, s.params.opcodes.byteOf k ≠ op) (h : step s = .next s') :
    faultMessage s' = some (unknownInstructionText (decimal op.toNat) (decimal s.pc)) := by
  rw [step_of_no_mnemonic hwindow hop] at h
  cases h
  exact faultMessage_enterFaulted_unknownOpcode s s.pc op

/-- Settles O36: the fetch fails with the byte and the pc recorded; and the two numerals of the message, which the blank
between them keeps apart, determine the numbers. -/
theorem unknownOpcodeFaultIsFatal : Obligations.UnknownOpcodeFaultIsFatal := by
  constructor
  · intro s op a b hwindow hop
    exact ⟨_, step_of_no_mnemonic hwindow hop, rfl, rfl, ⟨_, _, faultMessage_enterFaulted_unknownOpcode s s.pc op⟩,
      step_enterFaulted_ne_next s _⟩
  · intro s t s' t' op a b op' a' b' hs hops hstep ht hopt htstep hmessage
    have hsfits := hs.fits
    have htfits := ht.fits
    have hop := op.isLt
    have hop' := op'.isLt
    rw [faultMessage_of_step_no_mnemonic hs hops hstep, faultMessage_of_step_no_mnemonic ht hopt htstep] at hmessage
    obtain ⟨hopcode, hpc⟩ := unknownInstructionText_decimal_inj (by omega) (by omega) (by omega) (by omega)
      (Option.some.inj hmessage)
    exact ⟨BitVec.eq_of_toNat_eq hopcode, hpc⟩

/-! ### RegisterIndexFault (R95) -/

theorem Raises.firstBadIndex_eq {s : State} {n : Instr} {x : Byte} (h : Raises s n (.registerIndex x)) :
    firstBadIndex (s.checkedOperands n) = some x := by
  cases h; assumption

theorem gt_of_firstBadIndex {l : List Byte} {x : Byte} (h : firstBadIndex l = some x) : 7 < x.toNat :=
  of_decide_eq_true (List.find?_some (p := fun y : Byte => decide (7 < y.toNat)) h)

theorem eq_of_firstBadIndex_singleton {a x : Byte} (h : firstBadIndex [a] = some x) : x = a :=
  List.mem_singleton.mp (List.mem_of_find?_eq_some h)

theorem eq_or_of_firstBadIndex_pair {a b x : Byte} (h : firstBadIndex [a, b] = some x) :
    x = a ∨ (a.toNat ≤ 7 ∧ x = b) := by
  by_cases ha : 7 < a.toNat
  · rw [firstBadIndex_head _ ha] at h
    exact .inl (Option.some.inj h).symm
  · have hb : firstBadIndex [b] = some x := by simpa [firstBadIndex, ha] using h
    exact .inr ⟨Nat.not_lt.mp ha, eq_of_firstBadIndex_singleton hb⟩

/-- A bad index among operands that are checked on a condition only: the condition held. -/
theorem firstBadIndex_ite_nil {c : Prop} [Decidable c] {l : List Byte} {x : Byte}
    (h : firstBadIndex (if c then l else []) = some x) : c ∧ firstBadIndex l = some x := by
  by_cases hc : c
  · exact ⟨hc, by rwa [if_pos hc] at h⟩
  · rw [if_neg hc] at h; cases h

/-- Settles O40: the fault names the first index above 7 among the operands that the handler checks. -/
theorem registerIndexFaultOnlyWhenUsed : Obligations.RegisterIndexFaultOnlyWhenUsed := by
  intro n s t r x hwf _ hs h ht hk
  have hbad : firstBadIndex (s.checkedOperands n) = some x :=
    (hk ▸ raises_of_exec_records hs h ht).firstBadIndex_eq
  refine ⟨gt_of_firstBadIndex hbad, ?_⟩
  cases n with
  | nop | hlt | ret => cases hbad
  | ldi | prn | push | pop | jmp => exact eq_of_firstBadIndex_singleton hbad
  | add | sub | mul | cmp => exact eq_or_of_firstBadIndex_pair hbad
  | mod | or | xor | shl | shr => exact eq_or_of_firstBadIndex_pair (firstBadIndex_ite_nil hbad).2
  | not => exact eq_of_firstBadIndex_singleton (firstBadIndex_ite_nil hbad).2
  | jeq a =>
    obtain ⟨htaken, ha⟩ := firstBadIndex_ite_nil hbad
    exact ⟨htaken, eq_of_firstBadIndex_singleton ha⟩
  | jne a =>
    rw [State.checkedOperands, ← ite_not] at hbad
    obtain ⟨htaken, ha⟩ := firstBadIndex_ite_nil hbad
    exact ⟨Bool.eq_false_of_not_eq_true htaken, eq_of_firstBadIndex_singleton ha⟩
  | call a =>
    rw [State.checkedOperands, ← ite_not] at hbad
    obtain ⟨-, hindex⟩ := firstBadIndex_ite_nil hbad
    exact (eq_of_firstBadIndex_singleton hindex).trans (State.load_pushReturn hwf a)

/-! ### AluUnsupported (R99) -/

theorem Raises.of_aluUnsupported {s : State} {n : Instr} (h : Raises s n .aluUnsupported) :
    s.params.extAlu = .fault ∧ IsExtendedAlu n := by
  cases h with
  | unsupported hn hm => exact ⟨hm, hn⟩

theorem State.FaultsWith.of_aluUnsupported {s : State} {r : FaultRecord} (h : s.FaultsWith r)
    (hk : r.kind = .aluUnsupported) : s.params.extAlu = .fault ∧ ∃ n, s.fetch = .ok n ∧ IsExtendedAlu n := by
  cases h with
  | fetchBounds | unknownOpcode => cases hk
  | handler hfetch hraises =>
    cases hk
    obtain ⟨hm, hn⟩ := hraises.of_aluUnsupported
    exact ⟨hm, _, hfetch, hn⟩

/-- Settles O41: of the handlers' faults, only the gate of the six operations is AluUnsupported, and a failed fetch is
another fault. -/
theorem aluUnsupportedOnlyInFaultMode : Obligations.AluUnsupportedOnlyInFaultMode := by
  refine ⟨fun s t r hs h ht hk => ?_, rfl⟩
  obtain ⟨hm, n, hfetch, hn⟩ := (faultsWith_of_step_records hs h ht).of_aluUnsupported hk
  refine ⟨hm, n, State.fetches_of_fetch (step_cases h).1 hfetch, ?_⟩
  cases hn with
  | binary hbinary => cases hbinary <;> trivial
  | mod | not => trivial

/-! ### The codes and the exit status (R93, R103) -/

/-- Settles O54: the codes are the table's, and the exit status is a function of the run state. -/
theorem hostStatusFollowsFaultTable : Obligations.HostStatusFollowsFaultTable :=
  ⟨⟨rfl, rfl, fun _ => rfl, fun _ => rfl, rfl, rfl⟩, fun s h => by rw [exitStatus, h], fun s h => by rw [exitStatus, h],
    fun s h => by rw [exitStatus, h]⟩

end Sys2Proof.Machine
end

section
/-! PROOFS. The load and the reset (70_reset_and_hazards.md): which images load, the two regions of the memory that the
load leaves, and the state in which the first step begins. -/

namespace Sys2Proof.Machine

/-! ### Which images load (R105, R106) -/

theorem boot_nil (r : ResetInputs) : boot r [] = .error .emptyProgram := rfl

theorem boot_of_length_gt (r : ResetInputs) {image : List Byte} (h : 256 < image.length) :
    boot r image = .error .imageTooLong := by
  have hcheck : checkImage image = .error .imageTooLong := by
    rw [checkImage, if_neg (by omega), if_pos h]
  rw [boot, hcheck]
  rfl

theorem boot_of_length_le (r : ResetInputs) {image : List Byte} (hpos : 1 ≤ image.length) (hle : image.length ≤ 256) :
    boot r image = .ok ((State.poweredOn r).loadImage image) := by
  have hcheck : checkImage image = .ok image := by
    rw [checkImage, if_neg (by omega), if_neg (by omega)]
  rw [boot, hcheck]
  rfl

theorem boot_eq_ok {r : ResetInputs} {image : List Byte} {s : State} (h : boot r image = .ok s) :
    image.length ≤ 256 ∧ s = (State.poweredOn r).loadImage image := by
  obtain hempty | hpos := Nat.eq_zero_or_pos image.length
  · rw [List.length_eq_zero_iff.mp hempty, boot_nil] at h
    cases h
  · obtain hgt | hle := Nat.lt_or_ge 256 image.length
    · rw [boot_of_length_gt r hgt] at h
      cases h
    · rw [boot_of_length_le r hpos hle] at h
      cases h
      exact ⟨hle, rfl⟩

/-- Settles O26: the two ends of the length rule, and the exit statuses of R105's table. -/
theorem loadTakesOneTo256Bytes : Obligations.LoadTakesOneTo256Bytes :=
  ⟨fun r _ hpos hle => ⟨_, boot_of_length_le r hpos hle⟩, boot_nil, fun r _ => boot_of_length_gt r,
    rfl, rfl, rfl, rfl, rfl⟩

/-! ### The memory that the load leaves (R104, R112) -/

theorem Memory.read_writeBytes_zero_of_lt {m : Memory} (hm : m.wf = true) {bytes : List Byte} (hle : bytes.length ≤ 256)
    {k : Nat} (hk : k < bytes.length) : (m.writeBytes 0 bytes).read k = bytes[k] := by
  rw [Memory.read_writeBytes hm bytes (by omega), if_pos (Nat.zero_le k), Nat.sub_zero, List.getD_eq_getElem _ _ hk]

theorem Memory.read_writeBytes_zero_of_ge {m : Memory} (hm : m.wf = true) {bytes : List Byte} (hle : bytes.length ≤ 256)
    {k : Nat} (hk : bytes.length ≤ k) : (m.writeBytes 0 bytes).read k = m.read k := by
  rw [Memory.read_writeBytes hm bytes (by omega), if_pos (Nat.zero_le k), Nat.sub_zero, List.getD_eq_default _ _ hk]

theorem State.poweredOn_mem_wf (r : ResetInputs) : (State.poweredOn r).mem.wf = true :=
  Memory.wf_writeBytes Memory.wf_nil r.initMem.toList (by simp)

theorem State.poweredOn_mem_read (r : ResetInputs) {k : Nat} (hk : k < 256) :
    (State.poweredOn r).mem.read k = r.initMem[k] :=
  Memory.read_writeBytes_zero_of_lt Memory.wf_nil (by simp) (by simpa using hk)

/-! ### The registers and the invariant -/

theorem State.poweredOn_regs_of_lt (r : ResetInputs) {i : Nat} (hi : i < 7) :
    (State.poweredOn r).regs[i] = r.initRegs[i] :=
  Vector.getElem_push_lt hi

theorem State.poweredOn_sp (r : ResetInputs) : (State.poweredOn r).regs[7] = 0xF4 :=
  Vector.getElem_push_eq

theorem State.loadImage_poweredOn_inv (r : ResetInputs) {image : List Byte} (hle : image.length ≤ 256) :
    ((State.poweredOn r).loadImage image).Inv where
  memory_canonical := Memory.wf_writeBytes (State.poweredOn_mem_wf r) image (by omega)
  pc_bounded := Nat.zero_le _
  record_iff_faulted := iff_of_false Bool.false_ne_true RunState.noConfusion
  record_pc := fun _ h => nomatch h
  record_opcode := fun _ h => nomatch h

/-! ### The reset table (R107 to R109) -/

/-- Settles O23: the three values are those that the reset state is built with. -/
theorem resetStateFollowsSpec : Obligations.ResetStateFollowsSpec := ⟨rfl, rfl, rfl⟩

/-- Settles O25: the image overwrites `INIT_MEM` up to its own length, and every other field is the powered-on one. -/
theorem bootStateFollowsResetTable : Obligations.BootStateFollowsResetTable := by
  intro r image s h
  obtain ⟨hle, rfl⟩ := boot_eq_ok h
  have hwf := State.poweredOn_mem_wf r
  refine ⟨rfl, rfl, State.poweredOn_sp r, fun _ hi => State.poweredOn_regs_of_lt r hi, rfl, ?_, ?_, rfl, rfl, rfl,
    State.loadImage_poweredOn_inv r hle⟩
  · intro k hk
    exact Memory.read_writeBytes_zero_of_lt hwf hle hk
  · intro k hk hge
    exact (Memory.read_writeBytes_zero_of_ge hwf hle hge).trans (State.poweredOn_mem_read r hk)

end Sys2Proof.Machine
end
